-- ==== Sys2Proof/Word.lean ====
section
/-! DEFINITION. The byte and the byte sequence: every data value on every port of the block is one byte
(00_scope.md R8, R11), and sequences are read from index 0 (R12). -/

namespace Sys2Proof

/-- A byte: an unsigned 8-bit value, bit 7 most significant (R11). -/
abbrev Byte := BitVec 8

/-- A byte sequence; index 0 is the first byte written to and read from the wire (R12). -/
abbrev Bytes := List Byte

end Sys2Proof
end

