-- ==== Sys2Proof/Config.lean ====
section
/-! DEFINITION. The parameters of 00_scope.md R8, which 10_state.md R34 calls configuration: fixed before the
first operation and written by none. Their default values stand in Machine/Defaults.lean. -/

namespace Sys2Proof

/-- The eight parameters of R8 and R34. R20 counts them with the block's state, so State carries one of these
as plain data and every claim is made for every value of them (log entry 1). -/
structure Config where
  /-- `SEED`: the initial CRC accumulator (R8, R104). -/
  seed : Byte
  /-- `CRC8_TABLE`: the table of the CRC step (R51, R103). -/
  table : Bytes
  /-- `FEND`: the delimiter (R71, R72). -/
  fend : Byte
  /-- `FESC`: the escape marker (R71). -/
  fesc : Byte
  /-- `TFEND`: follows `FESC` to stand for `FEND` (R71). -/
  tfend : Byte
  /-- `TFESC`: follows `FESC` to stand for `FESC` (R71). -/
  tfesc : Byte
  /-- `DEADLINE_TICKS`: the ticks after `DEC_START` at which the decoder times out (R8, R29; OPEN). -/
  deadlineTicks : Nat
  /-- `ENC_MAX_PAYLOAD`: the largest payload `BUILD` accepts; `none` is unbounded (R8, R148; OPEN). -/
  encMaxPayload : Option Nat
  deriving DecidableEq, Repr

/-- The deadline the spec leaves OPEN (R8, N5: "Must not assume: any default"). It has no body, so no proof can
learn its value (log entry 4). -/
opaque Config.openDeadline : Nat

/-- R9: the four reserved values are distinct. -/
abbrev Config.distinct (c : Config) : Prop :=
  c.fend ≠ c.fesc ∧ c.fend ≠ c.tfend ∧ c.fend ≠ c.tfesc ∧
    c.fesc ≠ c.tfend ∧ c.fesc ≠ c.tfesc ∧ c.tfend ≠ c.tfesc

/-- R10: the table has exactly 256 entries. -/
abbrev Config.tableSized (c : Config) : Prop := c.table.length = 256

/-- R148: a bounded `ENC_MAX_PAYLOAD` "must be at least 255". -/
abbrev Config.encMaxOk (c : Config) : Prop := ∀ m ∈ c.encMaxPayload, 255 ≤ m

/-- A well-formed configuration (R9, R10, R148). -/
abbrev Config.wf (c : Config) : Prop := c.distinct ∧ c.tableSized ∧ c.encMaxOk

end Sys2Proof
end

