-- ==== Sys2Proof/Machine/Operands.lean ====
section
/-! DEFINITION. Operand forms: the masks and length byte of the frame fields (30_encoding.md R78), and the byte
and sequence operands of an operation record (R91, R93). -/

namespace Sys2Proof.Machine

/-- `v & 0x7F`: the low 7 bits, bit 7 clear (R78, R141). -/
def mask7 (v : Byte) : Byte := v &&& 0x7F

/-- `0x80 | a`: the address byte with its high bit set (R78, R142). -/
def addrByte (a : Byte) : Byte := 0x80 ||| a

/-- `|payload| & 0xFF`: the low 8 bits of the payload length (R78, R143). -/
def lenByte (p : Bytes) : Byte := BitVec.ofNat 8 p.length

/-- A 7-bit field as the byte with bit 7 clear (R75). -/
def byteOf7 (v : BitVec 7) : Byte := v.setWidth 8

/-- `v[6:0]` (R11). -/
def low7 (v : Byte) : BitVec 7 := v.setWidth 7

/-- A 16-bit length, high byte first (R93). -/
def lenOfBytes (hi lo : Byte) : Nat := hi.toNat * 256 + lo.toNat

/-- A sequence operand as a record holds it: its length in 16 bits, high byte first, then the bytes (R93). -/
def seqRecord (s : Bytes) : Bytes :=
  BitVec.ofNat 8 (s.length / 256) :: BitVec.ofNat 8 s.length :: s

/-- Read a sequence operand from the front of a record; `none` when the bytes end before it does. -/
def readSeq : Bytes → Option (Bytes × Bytes)
  | hi :: lo :: rest =>
    if lenOfBytes hi lo ≤ rest.length then
      some (rest.take (lenOfBytes hi lo), rest.drop (lenOfBytes hi lo))
    else none
  | _ => none

end Sys2Proof.Machine
end

