-- ==== Sys2Proof/Machine/Codec.lean ====
section
/-! DEFINITION. The pure functions of 00_scope.md R14, for any configuration: the checksum (40_crc8.md), the
stuffing encoder and its two inverses (41_byte_stuffing.md), and the frame encoder (42_frame_encoder.md). -/

namespace Sys2Proof.Machine

/-- `T[i]` (R51). In a well-formed configuration every byte indexes an entry (R10), so the default is never
read. -/
def tableAt (cfg : Config) (i : Byte) : Byte := cfg.table.getD i.toNat 0

/-- The CRC step `T[acc ^ b]` (R102). -/
def crcStep (cfg : Config) (acc b : Byte) : Byte := tableAt cfg (acc ^^^ b)

/-- `crc8(s) = foldl crc_step SEED s` (R104). -/
def crc8 (cfg : Config) (s : Bytes) : Byte := s.foldl (crcStep cfg) cfg.seed

/-- What the stuffing encoder emits for one byte after the first (R120). -/
def stuffByte (cfg : Config) (b : Byte) : Bytes :=
  if b = cfg.fend then [cfg.fesc, cfg.tfend]
  else if b = cfg.fesc then [cfg.fesc, cfg.tfesc]
  else [b]

/-- The stuffing encoder's loop over the bytes after the first (R120). -/
def stuffTail (cfg : Config) : Bytes → Bytes
  | [] => []
  | b :: bs => stuffByte cfg b ++ stuffTail cfg bs

/-- `stuff(s)`: byte 0 copied unchanged whatever it is, the rest escaped (R120). -/
def stuff (cfg : Config) : Bytes → Bytes
  | [] => []
  | b :: bs => b :: stuffTail cfg bs

/-- The three outcomes of the one-byte unstuffer (R125). -/
inductive Unstuffed where
  /-- `NEED`: nothing can be read yet. -/
  | need
  /-- `GOT(b, n)`: the byte read and how many bytes it took. -/
  | got (b : Byte) (n : Nat)
  /-- `BAD(n)`: a malformed escape, and how many bytes it drops. -/
  | bad (n : Nat)
  deriving DecidableEq, Repr

/-- `unstuff1(buf)` (R125): a lone `FESC` waits (R126); `FESC` before anything but `TFEND` or `TFESC` is malformed
and drops the `FESC` alone (R127). -/
def unstuff1 (cfg : Config) : Bytes → Unstuffed
  | [] => .need
  | [b] => if b = cfg.fesc then .need else .got b 1
  | b :: x :: _ =>
    if b = cfg.fesc then
      if x = cfg.tfend then .got cfg.fend 2
      else if x = cfg.tfesc then .got cfg.fesc 2
      else .bad 1
    else .got b 1

/-- The loop of `unstuff` (R129), structural on the input: `none` on a lone trailing `FESC` or a malformed
escape. -/
def unstuffTail (cfg : Config) : Bytes → Option Bytes
  | [] => some []
  | [b] => if b = cfg.fesc then none else some [b]
  | b :: x :: rest =>
    if b = cfg.fesc then
      if x = cfg.tfend then (unstuffTail cfg rest).map (cfg.fend :: ·)
      else if x = cfg.tfesc then (unstuffTail cfg rest).map (cfg.fesc :: ·)
      else none
    else (unstuffTail cfg (x :: rest)).map (b :: ·)

/-- `unstuff(w)`, the whole-sequence inverse: byte 0 copied, the rest read token by token (R129). -/
def unstuff (cfg : Config) : Bytes → Option Bytes
  | [] => some []
  | b :: bs => (unstuffTail cfg bs).map (b :: ·)

/-- A frame's bytes with the checksum of all of them appended (R79, R145). -/
def withCrc (cfg : Config) (f : Bytes) : Bytes := f ++ [crc8 cfg f]

/-- Format `F.UNADDR` before stuffing (R75). -/
def frameUnaddr (cfg : Config) (c : BitVec 7) (p : Bytes) : Bytes :=
  withCrc cfg ([cfg.fend, byteOf7 c, lenByte p] ++ p)

/-- Format `F.ADDR` before stuffing (R76). -/
def frameAddr (cfg : Config) (a c : BitVec 7) (p : Bytes) : Bytes :=
  withCrc cfg ([cfg.fend, addrByte (byteOf7 a), byteOf7 c, lenByte p] ++ p)

/-- The frame `build` assembles before its checksum: both operands masked first, then the address test (R140,
R141). -/
def frameBody (cfg : Config) (cmd addr : Byte) (payload : Bytes) : Bytes :=
  [cfg.fend] ++ (if mask7 addr = 0 then [] else [addrByte (mask7 addr)]) ++
    [mask7 cmd, lenByte payload] ++ payload

/-- `build(cmd, addr, payload)` (R140): assemble, append the checksum, stuff. -/
def build (cfg : Config) (cmd addr : Byte) (payload : Bytes) : Bytes :=
  stuff cfg (withCrc cfg (frameBody cfg cmd addr payload))

end Sys2Proof.Machine
end

