-- ==== Sys2Proof/Syntax.lean ====
section
/-! DEFINITION. One constructor for every row of spec/opcode_table.json: the nine operations of 30_encoding.md
R90, the six wire tokens of R73 and R74, and the two frame formats of R75 and R76. -/

namespace Sys2Proof

/-- The instructions, in the opcode table's order. -/
inductive Instr where
  /-- `CRC_INIT` (R100). -/
  | crcInit
  /-- `CRC_UPDATE d` (R101). -/
  | crcUpdate (d : Byte)
  /-- `STUFF s` (R123). -/
  | stuff (s : Bytes)
  /-- `UNSTUFF1 buf` (R128). -/
  | unstuff1 (buf : Bytes)
  /-- `BUILD cmd, addr, payload` (R147); any byte is accepted and masked (R91). -/
  | build (cmd addr : Byte) (payload : Bytes)
  /-- `DEC_START` (R161). -/
  | decStart
  /-- `DEC_FEED chunk` (R162). -/
  | decFeed (chunk : Bytes)
  /-- `DEC_TICK` (R173). -/
  | decTick
  /-- `DEC_READ` (R175). -/
  | decRead
  /-- Token `W.FEND`: the raw delimiter outside a frame (R74). -/
  | wFend
  /-- Token `W.ESC_FEND`: `FESC TFEND` (R73). -/
  | wEscFend
  /-- Token `W.ESC_FESC`: `FESC TFESC` (R73). -/
  | wEscFesc
  /-- Token `W.ESC_BAD`: `FESC x`, a malformed escape (R73, R127). -/
  | wEscBad (x : Byte)
  /-- Token `W.ESC_PART`: `FESC` with no byte after it yet (R73, R126). -/
  | wEscPart
  /-- Token `W.LIT`: a literal byte (R73). -/
  | wLit (b : Byte)
  /-- Frame format `F.UNADDR`; length and checksum follow from the other fields (R75). -/
  | fUnaddr (c : BitVec 7) (p : Bytes)
  /-- Frame format `F.ADDR`; length and checksum follow from the other fields (R76). -/
  | fAddr (a c : BitVec 7) (p : Bytes)
  deriving DecidableEq, Repr

/-- The opcode table's "format" column: `OP`, `TOKEN`, `FRAME`. The three encodings overlap in their bit
patterns (R90, R73, R75), so what is presented to the block says which of them it is in (log entry 7). -/
inductive RowFormat where
  | op
  | token
  | frame
  deriving DecidableEq, Repr

/-- Bytes presented to the block: a stream of operation records (R93), one wire token, or one unstuffed
frame. -/
structure Request where
  format : RowFormat
  bytes : Bytes
  deriving DecidableEq, Repr

/-- What the host issues in one piece (log entry 7). Records are a serialisation for test programs whose sequences
end at 65535 bytes (R93); the interface itself takes whole operands, of any finite length (R3, R91). -/
inductive Issue where
  /-- Encoded bytes, to be decoded. -/
  | encoded (r : Request)
  /-- An instruction with its operands whole. -/
  | whole (i : Instr)
  deriving DecidableEq, Repr

end Sys2Proof
end

