-- ==== Sys2Proof/Machine/State.lean ====
section
/-! DEFINITION. The block's state: the ten registers of 10_state.md R20, the configuration of R34, and the model's
own output port and request queue. -/

namespace Sys2Proof.Machine

/-- `dec_phase`: the decoder's state (R23). -/
inductive Phase where
  | idle
  | seekDelim
  | cmd
  | len
  | data
  | crc
  | doneOk
  | doneTimeout
  deriving DecidableEq, Repr

/-- The 3-bit encoding of R23. -/
def Phase.code : Phase → BitVec 3
  | .idle => 0
  | .seekDelim => 1
  | .cmd => 2
  | .len => 3
  | .data => 4
  | .crc => 5
  | .doneOk => 6
  | .doneTimeout => 7

/-- Phases 1 to 5 are active; 0, 6 and 7 are inactive (R23). -/
def Phase.active : Phase → Bool
  | .idle => false
  | .seekDelim => true
  | .cmd => true
  | .len => true
  | .data => true
  | .crc => true
  | .doneOk => false
  | .doneTimeout => false

/-- The phases `CMD` to `CRC`, in which the input is read as tokens (R73). -/
def Phase.inFrame : Phase → Bool
  | .idle => false
  | .seekDelim => false
  | .cmd => true
  | .len => true
  | .data => true
  | .crc => true
  | .doneOk => false
  | .doneTimeout => false

/-- `res_kind`: the result status (R30). The reserved value 3 is never written, so it has no constructor. -/
inductive ResKind where
  | none
  | ok
  | timeout
  deriving DecidableEq, Repr

/-- The 2-bit encoding of R30. -/
def ResKind.code : ResKind → BitVec 2
  | .none => 0
  | .ok => 1
  | .timeout => 2

/-- An event of the event output (R205). -/
inductive Event where
  /-- `CRC_MISMATCH(received, expected)`, code 1. -/
  | crcMismatch (received expected : Byte)
  /-- `BAD_ESCAPE(phase, follower)`, code 2; `phase` is the 3-bit value of `dec_phase`. -/
  | badEscape (phase : BitVec 3) (follower : Byte)
  deriving DecidableEq, Repr

/-- The event codes of R201 and R205. -/
def Event.code : Event → Nat
  | .crcMismatch _ _ => 1
  | .badEscape _ _ => 2

/-- What an operation drives on its outputs (the "outputs" column of R90). -/
inductive Output where
  /-- The operation has no outputs. -/
  | nothing
  /-- `acc` of `CRC_INIT` and `CRC_UPDATE`. -/
  | acc (a : Byte)
  /-- `w` of `STUFF` and `BUILD`. -/
  | wire (w : Bytes)
  /-- `kind`, `b`, `used` of `UNSTUFF1`. -/
  | unstuffed (kind : BitVec 2) (b : Byte) (used : Nat)
  /-- `phase`, `kind`, `payload` of `DEC_READ`. -/
  | status (phase : BitVec 3) (kind : BitVec 2) (payload : Bytes)
  deriving DecidableEq, Repr

/-- The block's state. Every field but the last two is the spec's (R20, R34). -/
structure State where
  /-- The configuration (R34); no operation writes it (log entry 1). -/
  cfg : Config
  /-- `crc_acc`: 8 bits, or UNSET, which is `none` (R21; log entry 13). -/
  crcAcc : Option Byte
  /-- `dec_phase` (R23). -/
  decPhase : Phase
  /-- `dec_buf`: the raw bytes fed and not yet consumed (R24). -/
  decBuf : Bytes
  /-- `dec_cmd` (R25). -/
  decCmd : Byte
  /-- `dec_len` (R26). -/
  decLen : Byte
  /-- `dec_payload` (R27). -/
  decPayload : Bytes
  /-- `dec_elapsed` (R29). -/
  decElapsed : Nat
  /-- `res_kind` (R30). -/
  resKind : ResKind
  /-- `res_payload` (R31). -/
  resPayload : Bytes
  /-- `ev_log`, oldest first (R32). -/
  evLog : List Event
  /-- The outputs of the last operation (the model's own; log entry 6). -/
  out : Output
  /-- What the host has issued and the block has not yet executed, oldest first (the model's own; log entry 7). -/
  pending : List Issue
  deriving DecidableEq, Repr

/-- The one fault (R218). -/
inductive Fault where
  /-- `CRC_UNINITIALISED`: raised by `CRC_UPDATE` while `crc_acc` is UNSET (R101, R107, U10). Safe: the model stops where a
  chip would use some value. -/
  | crcUninitialised
  deriving DecidableEq, Repr

/-- The refusals (R218, and those of the model's own interface). A refusal changes no state (R92, R148); that it ends the
run is the model's choice (log entry 26). All are safe: no state change is claimed past them. -/
inductive Refusal where
  /-- An instruction with no meaning yet; raised by `exec`'s arms only. Safe. -/
  | notModelled (mnemonic : String)
  /-- `RESERVED_OP`: an operation code R90 does not define (R92); raised by fetching. Safe. -/
  | reservedOp
  /-- `PAYLOAD_TOO_LONG`: `BUILD` over a bounded `ENC_MAX_PAYLOAD` (R148); raised by `BUILD`. Safe. -/
  | payloadTooLong
  /-- A configuration whose reserved bytes are not distinct (R9); raised before any operation. Safe. -/
  | reservedBytesNotDistinct
  /-- A configuration whose table has not 256 entries (R10); raised before any operation. Safe. -/
  | crcTableNot256
  /-- A configuration whose bounded `ENC_MAX_PAYLOAD` is under 255 (R148; log entry 12); raised before any
  operation. Safe. -/
  | encMaxPayloadUnder255
  /-- An operation record that ends before its operands do (log entry 11); raised by fetching. Safe. -/
  | truncatedRecord
  /-- A token request that is no wire token (R70; log entry 11); raised by fetching. Safe. -/
  | notAToken
  /-- A frame request of neither frame format (R75, R76; log entry 9); raised by fetching. Safe. -/
  | notAFrame
  /-- An instruction issued whole that is none of its row's (R73, R76; log entry 7); raised by fetching. Safe. -/
  | illFormedInstruction
  deriving DecidableEq, Repr

/-- Power-on (R35, R230): nothing issued, nothing on the output port. -/
def State.reset : State where
  cfg := defaultConfig
  crcAcc := none
  decPhase := .idle
  decBuf := []
  decCmd := 0
  decLen := 0
  decPayload := []
  decElapsed := 0
  resKind := .none
  resPayload := []
  evLog := []
  out := .nothing
  pending := []

/-- What one execution answers. -/
abbrev Outcome := Host.Outcome State Fault Refusal

end Sys2Proof.Machine
end

