-- ==== Sys2Proof/Machine/Ops.lean ====
section
/-! DEFINITION. The named operations over the registers. The block has no memory (20_memory.md R50) and takes no
exceptions (60_exceptions.md R200); what stands nearest to taking one is resynchronisation (R208), here `resync`
with the two errors that lead to it. -/

namespace Sys2Proof.Machine

/-- Drive an operation's outputs (R13 `out <- v`). -/
def State.drive (s : State) (o : Output) : State := { s with out := o }

/-- Write `crc_acc` (R21). -/
def State.setCrcAcc (s : State) (a : Byte) : State := { s with crcAcc := some a }

/-- Append an event to `ev_log` (R13 `emit`, R205). -/
def State.emit (s : State) (e : Event) : State := { s with evLog := s.evLog ++ [e] }

/-- Append raw bytes at the end of `dec_buf` (R24, R162). -/
def State.appendBuf (s : State) (chunk : Bytes) : State := { s with decBuf := s.decBuf ++ chunk }

/-- Remove `n` bytes from the front of `dec_buf` (R24). -/
def State.dropBuf (s : State) (n : Nat) : State := { s with decBuf := s.decBuf.drop n }

/-- What `DEC_START` leaves (R161). -/
def State.start (s : State) : State :=
  { s with
    decPhase := .seekDelim, decBuf := [], decCmd := 0, decLen := 0, decPayload := [],
    decElapsed := 0, resKind := .none, resPayload := [] }

/-- `resync()` (R172): the frame in progress is discarded; the unread input, the elapsed count and the result stay. -/
def State.resync (s : State) : State :=
  { s with decPhase := .seekDelim, decCmd := 0, decLen := 0, decPayload := [] }

/-- `bad_escape(n)` (R171): the follower byte is reported and stays in `dec_buf`. A malformed escape has a byte at
index 1 (`unstuff1_eq_bad`), so the default is never read. -/
def State.badEscape (s : State) (n : Nat) : State :=
  ((s.dropBuf n).emit (.badEscape s.decPhase.code (s.decBuf.getD 1 0))).resync

/-- The checksum a frame in progress should carry (R168). -/
def State.expectedCrc (s : State) : Byte :=
  crc8 s.cfg ([s.cfg.fend, s.decCmd, s.decLen] ++ s.decPayload)

/-- `accept()` (R169): the result is latched and the rest of the input discarded (R187). -/
def State.accept (s : State) : State :=
  { s with resKind := .ok, resPayload := s.decPayload, decPhase := .doneOk, decBuf := [] }

/-- A checksum mismatch (R170): report it, then resynchronise. -/
def State.crcMismatch (s : State) (received : Byte) : State :=
  (s.emit (.crcMismatch received s.expectedCrc)).resync

/-- `timeout()` (R174). -/
def State.timeout (s : State) : State :=
  { s with decPhase := .doneTimeout, resKind := .timeout, resPayload := [], decBuf := [] }

end Sys2Proof.Machine
end

