-- ==== Sys2Proof/Machine/Crc.lean ====
section
/-! DEFINITION. The CRC generator's operations (40_crc8.md). -/

namespace Sys2Proof.Machine

/-- `CRC_INIT` (R100). -/
def execCrcInit (s : State) : Outcome :=
  .next ((s.setCrcAcc s.cfg.seed).drive (.acc s.cfg.seed))

/-- `CRC_UPDATE d` (R101). UNSET is a fault by the first line of R101's pseudocode, by R107, and by R218 and item U10;
it is the power-on value R230 gives `crc_acc`, not the want of one. -/
def execCrcUpdate (d : Byte) (s : State) : Outcome :=
  match s.crcAcc with
  | none => .fault .crcUninitialised
  | some a => .next ((s.setCrcAcc (crcStep s.cfg a d)).drive (.acc (crcStep s.cfg a d)))

end Sys2Proof.Machine
end

