-- ==== Sys2Proof/Machine/Transitions.lean ====
section
/-! DEFINITION. The decoder's transitions (43_frame_decoder.md R160 to R172): `step()` for each phase, and `run()`
which applies them until none is enabled. -/

namespace Sys2Proof.Machine

/-- The bytes after the first `d`, if there is one (R164: "discard everything up to and including it"). -/
def afterFirst (d : Byte) : Bytes → Option Bytes
  | [] => none
  | b :: bs => if b = d then some bs else afterFirst d bs

/-- `SEEK_DELIM` (R164): raw bytes, no unstuffing. -/
def stepSeek (s : State) : Option State :=
  match afterFirst s.cfg.fend s.decBuf with
  | some rest => some { s with decBuf := rest, decPhase := .cmd }
  | none => none

/-- What the phases `CMD`, `LEN`, `DATA` and `CRC` share: read one token, wait on `NEED`, resynchronise on a
malformed escape, and otherwise drop the token and go on with the byte it stands for (R165 to R168, R171). -/
def stepToken (s : State) (onByte : State → Byte → State) : Option State :=
  match unstuff1 s.cfg s.decBuf with
  | .need => none
  | .bad n => some (s.badEscape n)
  | .got b n => some (onByte (s.dropBuf n) b)

/-- The command byte, all 8 bits, unchecked (R165, R179). -/
def takeCmd (s : State) (b : Byte) : State := { s with decCmd := b, decPhase := .len }

/-- The declared length (R166). -/
def takeLen (s : State) (b : Byte) : State :=
  { s with decLen := b, decPayload := [], decPhase := .data }

/-- One payload byte (R167). -/
def takeData (s : State) (b : Byte) : State := { s with decPayload := s.decPayload ++ [b] }

/-- The received checksum (R168): accept or report a mismatch. -/
def takeCrc (s : State) (r : Byte) : State :=
  if r = s.expectedCrc then s.accept else s.crcMismatch r

/-- `step()` (R163): `none` when the table of R160 says wait or the phase is inactive. -/
def decStep (s : State) : Option State :=
  match s.decPhase with
  | .idle => none
  | .seekDelim => stepSeek s
  | .cmd => stepToken s takeCmd
  | .len => stepToken s takeLen
  | .data =>
    if s.decPayload.length = s.decLen.toNat then some { s with decPhase := .crc }
    else stepToken s takeData
  | .crc => stepToken s takeCrc
  | .doneOk => none
  | .doneTimeout => none

/-- The loop of `run()`, at most `fuel` transitions. -/
def runFuel : Nat → State → State
  | 0, s => s
  | fuel + 1, s =>
    match decStep s with
    | none => s
    | some s' => runFuel fuel s'

/-- `run()` (R163). Its fuel is the bound of R180, which is enough: no transition is enabled after it
(`decStep_run`). -/
def run (s : State) : State := runFuel (2 * s.decBuf.length + 1) s

/-- What `DEC_FEED` does to the decoder: an inactive phase discards the chunk (R176), an active one appends it and
runs to quiescence (R162). -/
def feed (s : State) (chunk : Bytes) : State :=
  if s.decPhase.active then run (s.appendBuf chunk) else s

/-- What `DEC_TICK` does to the decoder (R173). -/
def tick (s : State) : State :=
  if s.decPhase.active then
    let t := { s with decElapsed := s.decElapsed + 1 }
    if s.cfg.deadlineTicks ≤ t.decElapsed then t.timeout else t
  else s

end Sys2Proof.Machine
end

