-- ==== Sys2Proof/Machine/Decoder.lean ====
section
/-! DEFINITION. The streaming frame decoder's operations (43_frame_decoder.md). -/

namespace Sys2Proof.Machine

/-- `DEC_START` (R161). -/
def execDecStart (s : State) : Outcome := .next (s.start.drive .nothing)

/-- `DEC_FEED chunk` (R162). -/
def execDecFeed (chunk : Bytes) (s : State) : Outcome := .next ((feed s chunk).drive .nothing)

/-- `DEC_TICK` (R173). -/
def execDecTick (s : State) : Outcome := .next ((tick s).drive .nothing)

/-- `DEC_READ` (R175). -/
def execDecRead (s : State) : Outcome :=
  .next (s.drive (.status s.decPhase.code s.resKind.code s.resPayload))

end Sys2Proof.Machine
end

