-- ==== Sys2Proof/Machine/Encoder.lean ====
section
/-! DEFINITION. The frame encoder's operation (42_frame_encoder.md). -/

namespace Sys2Proof.Machine

/-- `ENC_MAX_PAYLOAD` is bounded and the payload is longer (R147). -/
def overMax (cfg : Config) (payload : Bytes) : Bool :=
  match cfg.encMaxPayload with
  | none => false
  | some m => m < payload.length

/-- `BUILD cmd, addr, payload` (R147); an over-long payload is refused (R148). -/
def execBuild (cmd addr : Byte) (payload : Bytes) (s : State) : Outcome :=
  if overMax s.cfg payload then .refused .payloadTooLong
  else .next (s.drive (.wire (build s.cfg cmd addr payload)))

end Sys2Proof.Machine
end

