-- ==== Sys2Proof/Machine/Stuffing.lean ====
section
/-! DEFINITION. The byte-stuffing codec's operations (41_byte_stuffing.md). -/

namespace Sys2Proof.Machine

/-- `STUFF s` (R123). -/
def execStuff (b : Bytes) (s : State) : Outcome :=
  .next (s.drive (.wire (stuff s.cfg b)))

/-- The outputs `(kind, b, used)` of `UNSTUFF1` (R128). -/
def unstuffedOutput : Unstuffed → Output
  | .need => .unstuffed 0 0 0
  | .got b n => .unstuffed 1 b n
  | .bad n => .unstuffed 2 0 n

/-- `UNSTUFF1 buf` (R128); it does not touch `dec_buf`. -/
def execUnstuff1 (buf : Bytes) (s : State) : Outcome :=
  .next (s.drive (unstuffedOutput (unstuff1 s.cfg buf)))

end Sys2Proof.Machine
end

