-- ==== Sys2Proof/Machine/Wire.lean ====
section
/-! DEFINITION. The wire tokens (30_encoding.md R73, R74) and frame formats (R75, R76) as instructions: their bytes
arrive at the decoder, which reads them as its phase says (log entry 8). -/

namespace Sys2Proof.Machine

/-- Wire bytes arrive at the decoder: the effect of feeding them (R162), with nothing driven. -/
def receive (s : State) (w : Bytes) : State := (feed s w).drive .nothing

/-- `W.FEND`: starts a frame in `SEEK_DELIM` (R74). -/
def execWFend (s : State) : Outcome := .next (receive s [s.cfg.fend])

/-- `W.ESC_FEND`: yields `FEND` (R73, R125). -/
def execWEscFend (s : State) : Outcome := .next (receive s [s.cfg.fesc, s.cfg.tfend])

/-- `W.ESC_FESC`: yields `FESC` (R73, R125). -/
def execWEscFesc (s : State) : Outcome := .next (receive s [s.cfg.fesc, s.cfg.tfesc])

/-- `W.ESC_BAD`: a malformed escape; only the `FESC` is consumed, the follower is examined next (R73, R127, R171). -/
def execWEscBad (x : Byte) (s : State) : Outcome := .next (receive s [s.cfg.fesc, x])

/-- `W.ESC_PART`: nothing consumed; the decoder waits (R73, R126). -/
def execWEscPart (s : State) : Outcome := .next (receive s [s.cfg.fesc])

/-- `W.LIT`: yields the byte itself (R73, R125). -/
def execWLit (b : Byte) (s : State) : Outcome := .next (receive s [b])

/-- `F.UNADDR`: the frame arrives in its wire form, stuffed (R15 "Wire bytes", R75, R184). -/
def execFUnaddr (c : BitVec 7) (p : Bytes) (s : State) : Outcome :=
  .next (receive s (stuff s.cfg (frameUnaddr s.cfg c p)))

/-- `F.ADDR`: the frame arrives in its wire form; the decoder has no address field (R76, R178). -/
def execFAddr (a c : BitVec 7) (p : Bytes) (s : State) : Outcome :=
  .next (receive s (stuff s.cfg (frameAddr s.cfg a c p)))

end Sys2Proof.Machine
end

