-- ==== Sys2Proof/Machine/Dispatch.lean ====
section
/-! DEFINITION. One arm per constructor of Instr, each one call of that instruction's meaning. -/

namespace Sys2Proof.Machine

def exec (i : Instr) (s : State) : Host.Outcome State Fault Refusal :=
  match i with
  | .crcInit => Sys2Proof.Machine.execCrcInit s
  | .crcUpdate d => Sys2Proof.Machine.execCrcUpdate d s
  | .stuff b => Sys2Proof.Machine.execStuff b s
  | .unstuff1 buf => Sys2Proof.Machine.execUnstuff1 buf s
  | .build cmd addr p => Sys2Proof.Machine.execBuild cmd addr p s
  | .decStart => Sys2Proof.Machine.execDecStart s
  | .decFeed chunk => Sys2Proof.Machine.execDecFeed chunk s
  | .decTick => Sys2Proof.Machine.execDecTick s
  | .decRead => Sys2Proof.Machine.execDecRead s
  | .wFend => Sys2Proof.Machine.execWFend s
  | .wEscFend => Sys2Proof.Machine.execWEscFend s
  | .wEscFesc => Sys2Proof.Machine.execWEscFesc s
  | .wEscBad x => Sys2Proof.Machine.execWEscBad x s
  | .wEscPart => Sys2Proof.Machine.execWEscPart s
  | .wLit b => Sys2Proof.Machine.execWLit b s
  | .fUnaddr c p => Sys2Proof.Machine.execFUnaddr c p s
  | .fAddr a c p => Sys2Proof.Machine.execFAddr a c p s

end Sys2Proof.Machine
end

