-- ==== Sys2Proof/WellFormed.lean ====
section
/-! DEFINITION. When an instruction is one of the opcode table's, and when its operands fit an operation record. -/

namespace Sys2Proof

/-- Well-formedness, per row: a byte or sequence operand may be any (R91); the follower of `W.ESC_BAD` is neither
`TFEND` nor `TFESC`, and `W.LIT` is not `FESC` (R73); the address of `F.ADDR` is not 0 (R76). -/
def Instr.wf (cfg : Config) : Instr → Bool
  | .crcInit => true
  | .crcUpdate _ => true
  | .stuff _ => true
  | .unstuff1 _ => true
  | .build _ _ _ => true
  | .decStart => true
  | .decFeed _ => true
  | .decTick => true
  | .decRead => true
  | .wFend => true
  | .wEscFend => true
  | .wEscFesc => true
  | .wEscBad x => x != cfg.tfend && x != cfg.tfesc
  | .wEscPart => true
  | .wLit b => b != cfg.fesc
  | .fUnaddr _ _ => true
  | .fAddr a _ _ => a != 0

/-- R93: a sequence operand holds at most 65535 bytes in an operation record. -/
def seqFits (s : Bytes) : Bool := s.length ≤ 65535

/-- Whether an instruction's encoding can hold its operands: the 16-bit length of R93 bounds the sequences of an
operation record and nothing else. -/
def Instr.fits : Instr → Bool
  | .crcInit => true
  | .crcUpdate _ => true
  | .stuff s => seqFits s
  | .unstuff1 buf => seqFits buf
  | .build _ _ p => seqFits p
  | .decStart => true
  | .decFeed c => seqFits c
  | .decTick => true
  | .decRead => true
  | .wFend => true
  | .wEscFend => true
  | .wEscFesc => true
  | .wEscBad _ => true
  | .wEscPart => true
  | .wLit _ => true
  | .fUnaddr _ _ => true
  | .fAddr _ _ _ => true

/-- Which of the table's three formats an instruction's row has. -/
def Instr.format : Instr → RowFormat
  | .crcInit => .op
  | .crcUpdate _ => .op
  | .stuff _ => .op
  | .unstuff1 _ => .op
  | .build _ _ _ => .op
  | .decStart => .op
  | .decFeed _ => .op
  | .decTick => .op
  | .decRead => .op
  | .wFend => .token
  | .wEscFend => .token
  | .wEscFesc => .token
  | .wEscBad _ => .token
  | .wEscPart => .token
  | .wLit _ => .token
  | .fUnaddr _ _ => .frame
  | .fAddr _ _ _ => .frame

end Sys2Proof
end

