-- ==== Sys2Proof/Decode.lean ====
section
/-! DEFINITION. From bytes to an instruction, in the three encodings of 30_encoding.md (operation records R90 and
R93, wire tokens R73 and R74, frames R75 and R76), and the encoder back. Decoding is total and rejects by name. -/

namespace Sys2Proof

open Sys2Proof.Machine

/-- Why bytes are no instruction. -/
inductive DecodeError where
  /-- An operation code R90 does not define (R92). -/
  | reservedOp
  /-- The bytes end before the operation record does (log entry 11). -/
  | truncatedRecord
  /-- Neither one byte nor `FESC` and its follower (R70). -/
  | notAToken
  /-- Not of format `F.UNADDR` or `F.ADDR` (R75, R76; log entry 9). -/
  | notAFrame
  deriving DecidableEq, Repr

/-- Build an instruction from a sequence operand at the front of `rest` (R93). -/
def seqOperand (mk : Bytes → Instr) (rest : Bytes) : Except DecodeError (Instr × Bytes) :=
  match readSeq rest with
  | some (s, r) => .ok (mk s, r)
  | none => .error .truncatedRecord

/-- Read one operation record from the front of a stream of them: the operation code of R90, then the operands
in table order (R93). Any other code selects no operation (R92). -/
def decodeOp : Bytes → Except DecodeError (Instr × Bytes)
  | [] => .error .truncatedRecord
  | op :: rest =>
    match op.toNat with
    | 0x01 => .ok (.crcInit, rest)
    | 0x02 =>
      match rest with
      | d :: r => .ok (.crcUpdate d, r)
      | [] => .error .truncatedRecord
    | 0x03 => seqOperand .stuff rest
    | 0x04 => seqOperand .unstuff1 rest
    | 0x05 =>
      match rest with
      | cmd :: addr :: r => seqOperand (.build cmd addr) r
      | _ => .error .truncatedRecord
    | 0x06 => .ok (.decStart, rest)
    | 0x07 => seqOperand .decFeed rest
    | 0x08 => .ok (.decTick, rest)
    | 0x09 => .ok (.decRead, rest)
    | _ => .error .reservedOp

/-- Read one whole wire token. The rows of R73 are tried in order; outside a frame a byte `FEND` is `W.FEND`
(R74), inside one it is a literal (R73, R177). -/
def decodeToken (cfg : Config) (inFrame : Bool) : Bytes → Except DecodeError Instr
  | [b] =>
    if b = cfg.fesc then .ok .wEscPart
    else if b = cfg.fend ∧ inFrame = false then .ok .wFend
    else .ok (.wLit b)
  | [b, x] =>
    if b = cfg.fesc then
      if x = cfg.tfend then .ok .wEscFend
      else if x = cfg.tfesc then .ok .wEscFesc
      else .ok (.wEscBad x)
    else .error .notAToken
  | _ => .error .notAToken

/-- The payload and checksum bytes that end a frame, given every byte before them: the length byte must be the
payload's and the checksum that of all before it (R75, R76, R79). -/
def frameEnd (cfg : Config) (head : Bytes) : Bytes → Option Bytes
  | [] => none
  | l :: body =>
    match body.getLast? with
    | none => none
    | some k =>
      if l = lenByte body.dropLast ∧ k = crc8 cfg (head ++ l :: body.dropLast) then some body.dropLast
      else none

/-- Read one whole unstuffed frame; bit 7 of byte 1 tells the formats apart (R77). -/
def decodeFrame (cfg : Config) : Bytes → Except DecodeError Instr
  | f :: b :: rest =>
    if f = cfg.fend then
      if b.msb = false then
        match frameEnd cfg [f, b] rest with
        | some p => .ok (.fUnaddr (low7 b) p)
        | none => .error .notAFrame
      else
        match rest with
        | c :: tail =>
          if low7 b ≠ 0 ∧ c.msb = false then
            match frameEnd cfg [f, b, c] tail with
            | some p => .ok (.fAddr (low7 b) (low7 c) p)
            | none => .error .notAFrame
          else .error .notAFrame
        | [] => .error .notAFrame
    else .error .notAFrame
  | _ => .error .notAFrame

/-- Decode what is presented to the block: an operation stream yields its first record and the bytes after it,
a token or a frame is read whole. `inFrame` says whether the decoder is in a phase `CMD` to `CRC` (R73, R74). -/
def decode (cfg : Config) (inFrame : Bool) (r : Request) : Except DecodeError (Instr × Bytes) :=
  match r.format with
  | .op => decodeOp r.bytes
  | .token => (decodeToken cfg inFrame r.bytes).map (·, [])
  | .frame => (decodeFrame cfg r.bytes).map (·, [])

/-! The encoder, written from the same tables. -/

/-- The bytes of an instruction: its operation record (R90, R93), its wire bytes (R73, R74), or its frame before
stuffing (R75, R76). -/
def encode (cfg : Config) : Instr → Bytes
  | .crcInit => [0x01]
  | .crcUpdate d => [0x02, d]
  | .stuff s => 0x03 :: seqRecord s
  | .unstuff1 buf => 0x04 :: seqRecord buf
  | .build cmd addr p => 0x05 :: cmd :: addr :: seqRecord p
  | .decStart => [0x06]
  | .decFeed c => 0x07 :: seqRecord c
  | .decTick => [0x08]
  | .decRead => [0x09]
  | .wFend => [cfg.fend]
  | .wEscFend => [cfg.fesc, cfg.tfend]
  | .wEscFesc => [cfg.fesc, cfg.tfesc]
  | .wEscBad x => [cfg.fesc, x]
  | .wEscPart => [cfg.fesc]
  | .wLit b => [b]
  | .fUnaddr c p => frameUnaddr cfg c p
  | .fAddr a c p => frameAddr cfg a c p

/-- An instruction presented to the block in its own format. -/
def request (cfg : Config) (i : Instr) : Request := ⟨i.format, encode cfg i⟩

/-! The opcode table's own numbering of bits (log entry 10). -/

/-- The low `n` bytes of `w`, highest first: the table writes a pattern's first byte leftmost. -/
def wordBytes : Nat → Nat → Bytes
  | 0, _ => []
  | n + 1, w => BitVec.ofNat 8 (w / 256 ^ n) :: wordBytes n w

/-- An operation code with operand bytes of zeros, as many as its record takes. -/
def zeroRecord (op : Byte) : Bytes :=
  let bytes := [op, 0, 0, 0, 0]
  match decodeOp bytes with
  | .ok (_, rest) => bytes.take (bytes.length - rest.length)
  | .error _ => bytes

/-- What a table word of `nbits` bits presents to the block: one byte is an operation code where R90 defines it and
a one-byte token otherwise, two bytes are a token, more are a frame. -/
def tableRequest (nbits w : Nat) : Request :=
  if nbits ≤ 8 then
    if 1 ≤ w ∧ w ≤ 9 then ⟨.op, zeroRecord (BitVec.ofNat 8 w)⟩ else ⟨.token, wordBytes 1 w⟩
  else if nbits ≤ 16 then ⟨.token, wordBytes 2 w⟩
  else ⟨.frame, wordBytes (nbits / 8) w⟩

/-- The instruction the decoder reads from a table word, with the default byte values, outside a frame. -/
def decodeTableWord (nbits w : Nat) : Option Instr :=
  match decode defaultConfig false (tableRequest nbits w) with
  | .ok (i, _) => some i
  | .error _ => none

end Sys2Proof
end

