-- ==== Sys2Proof/Machine/Fetch.lean ====
section
/-! DEFINITION. What the block does next: check the configuration, take the next request, decode it. -/

namespace Sys2Proof.Machine

/-- `n` rows of sixteen entries, and nothing after them: the shape R103 prints the table in. -/
def hasRows : Nat → Bytes → Bool
  | 0, l => l.isEmpty
  | n + 1, _ :: _ :: _ :: _ :: _ :: _ :: _ :: _ :: _ :: _ :: _ :: _ :: _ :: _ :: _ :: _ :: rest =>
    hasRows n rest
  | _ + 1, _ => false

/-- Why a configuration is refused before any operation (R9, R10, R148, R218). R218 gives one outcome, "refuse the
configuration", without names or an order; that each defect has a name of its own, and that the first of them in the
order distinctness, table size, `ENC_MAX_PAYLOAD` is the one named, is the model's choice (log entry 24). The table is counted row by row, which
evaluates fast; it is the length test of `Config.wf` (`hasRows_iff`). -/
def configRefusal (c : Config) : Option Refusal :=
  if c.distinct then
    if hasRows 16 c.table then
      if c.encMaxOk then none else some .encMaxPayloadUnder255
    else some .crcTableNot256
  else some .reservedBytesNotDistinct

/-- The refusal of bytes that are no instruction. -/
def decodeRefusal : DecodeError → Refusal
  | .reservedOp => .reservedOp
  | .truncatedRecord => .truncatedRecord
  | .notAToken => .notAToken
  | .notAFrame => .notAFrame

/-- What stands first in the request queue. -/
inductive Fetched where
  /-- No request: the block waits (R213). -/
  | idle
  /-- Refused at the interface (R92, R218). -/
  | refused (r : Refusal)
  /-- An instruction, and the state with its bytes taken off the queue. -/
  | run (i : Instr) (s : State)
  deriving DecidableEq, Repr

/-- The queue after an instruction is taken from its first request, of which `rest` is left: a stream of operation
records stays until it is used up (R93). -/
def queueAfter (r : Request) (rest : Bytes) (later : List Issue) : List Issue :=
  if rest = [] then later else .encoded { r with bytes := rest } :: later

/-- Fetch the next instruction: one issued whole as it is, one in bytes decoded. -/
def fetch (s : State) : Fetched :=
  match configRefusal s.cfg with
  | some r => .refused r
  | none =>
    match s.pending with
    | [] => .idle
    | .whole i :: later =>
      if i.wf s.cfg then .run i { s with pending := later } else .refused .illFormedInstruction
    | .encoded r :: later =>
      match decode s.cfg s.decPhase.inFrame r with
      | .error e => .refused (decodeRefusal e)
      | .ok (i, rest) => .run i { s with pending := queueAfter r rest later }

end Sys2Proof.Machine
end

