-- ==== Sys2Proof/Machine/Step.lean ====
section
/-! DEFINITION. One step: execute the next instruction the host has issued, in issue order (20_memory.md R60), or
wait when there is none (60_exceptions.md R213). -/

namespace Sys2Proof.Machine

/-- One step of the block. -/
def step (s : State) : Host.Outcome State Fault Refusal :=
  match fetch s with
  | .idle => .next s
  | .refused r => .refused r
  | .run i s' => exec i s'

/-- `s` with a word of the opcode table first in its request queue (log entries 7 and 10). -/
def State.withFetchWord (s : State) (nbits w : Nat) : State :=
  { s with pending := .encoded (tableRequest nbits w) :: s.pending }

end Sys2Proof.Machine
end

