-- ==== Sys2Proof/Machine/Execution.lean ====
section
/-! DEFINITION. Executions as R17 has them: a finite or infinite sequence of operations that one host issues, applied
one by one through `step`. -/

namespace Sys2Proof.Machine

/-- The host issues one more thing, behind what it has issued before (R60; log entry 7). -/
def State.issue (s : State) (q : Issue) : State := { s with pending := s.pending ++ [q] }

/-- What the host issues at each of its turns, one instruction or nothing. A sequence that issues nothing from some
turn on is a finite execution, any other an infinite one (R17). -/
abbrev Schedule := Nat → Option Instr

/-- One turn: the host issues what it issues, with its operands whole (R3), and the block takes a step. -/
def turn (op : Option Instr) (s : State) : Outcome :=
  match op with
  | none => step s
  | some i => step (s.issue (.whole i))

/-- The outcome after the first `n` turns. A fault ends the execution (R13; log entry 13). That a refusal ends it too,
where the spec says only that it changes no state (R92, R148) and that the run is marked refused (P8), is the model's
choice (log entry 26). -/
def after (ops : Schedule) (s : State) : Nat → Outcome
  | 0 => .next s
  | n + 1 =>
    match after ops s n with
    | .next t => turn (ops n) t
    | .fault f => .fault f
    | .refused r => .refused r

end Sys2Proof.Machine
end

