-- ==== Sys2Proof/Machine/Flags.lean ====
section
/-! DEFINITION. The block has no flags register; 10_state.md R33 derives three flags from the state. -/

namespace Sys2Proof.Machine

/-- `busy`: `dec_phase` is active (R33). -/
def State.busy (s : State) : Bool := s.decPhase.active

/-- `done`: `dec_phase` is 6 or 7 (R33). -/
def State.done (s : State) : Bool :=
  s.decPhase == .doneOk || s.decPhase == .doneTimeout

/-- `esc_pending`: `dec_phase` is 2 to 5 and `dec_buf = [FESC]` (R33). -/
def State.escPending (s : State) : Bool :=
  s.decPhase.inFrame && s.decBuf == [s.cfg.fesc]

end Sys2Proof.Machine
end

