-- ==== Sys2Proof/Machine/Pseudo.lean ====
section
/-! DEFINITION. The pseudo-operations of 30_encoding.md R95 as the operation sequences they expand to. None has an
operation code. `UNSTUFF` is the function `unstuff` (Machine/Codec.lean). -/

namespace Sys2Proof.Machine

/-- `CRC8 s`: `CRC_INIT`, then one `CRC_UPDATE` per byte (R95). -/
def crc8Ops (s : Bytes) : List Instr := .crcInit :: s.map .crcUpdate

/-- `DECODE w, k`: `DEC_START`, `DEC_FEED w`, `k` ticks, `DEC_READ` (R95). -/
def decodeOps (w : Bytes) (k : Nat) : List Instr :=
  [.decStart, .decFeed w] ++ List.replicate k .decTick ++ [.decRead]

/-- The block operations of `SEND` when the transport delivers `rounds`, one chunk per turn of the host's loop
(R95, R234). The transport's own calls are outside the block (R6). How many ticks and reads one turn holds is the host's
("`DEC_TICK` as time passes"), and it leaves the loop when `DEC_READ` reports `done`: one feed, one tick and one read per
turn, and going through every given round, `done` or not, are the model's choice (log entry 25). -/
def sendOps (cmd addr : Byte) (payload : Bytes) (rounds : List Bytes) : List Instr :=
  [.build cmd addr payload, .decStart] ++
    rounds.flatMap fun chunk => [.decFeed chunk, .decTick, .decRead]

end Sys2Proof.Machine
end

