-- ==== Sys2Proof/Safety.lean ====
section
/-! DEFINITION. The terms claims are stated in: sequences of operations, what an execution observes and the fairness it
may assume, the invariants of 10_state.md R38 and the bounds beside them, and where an instruction stops. -/

namespace Sys2Proof.Machine

/-- Executing a sequence of operations, one after another (R17, R60). A fault ends it (R13), and by the model's choice
a refusal does too (log entry 26). -/
def execAll : List Instr → State → Outcome
  | [], s => .next s
  | i :: is, s =>
    match exec i s with
    | .next t => execAll is t
    | .fault f => .fault f
    | .refused r => .refused r

/-- What a claim observes of a state (R17): the outputs, the event output, and what `DEC_READ` reads. -/
structure Observed where
  out : Output
  evLog : List Event
  phase : BitVec 3
  kind : BitVec 2
  payload : Bytes
  deriving DecidableEq, Repr

/-- The observation of a state. -/
def State.observe (s : State) : Observed :=
  ⟨s.out, s.evLog, s.decPhase.code, s.resKind.code, s.resPayload⟩

/-- What an execution observes after `n` turns; `none` once it has stopped. -/
def observed (ops : Schedule) (s : State) (n : Nat) : Option Observed :=
  match after ops s n with
  | .next t => some t.observe
  | .fault _ => none
  | .refused _ => none

/-- After `n` turns the execution goes on, with a decode call active (R23). -/
def ActiveAt (ops : Schedule) (s : State) (n : Nat) : Prop :=
  ∃ t, after ops s n = .next t ∧ t.decPhase.active = true

/-- The weak-fairness premise of R245: the host keeps issuing `DEC_TICK` until the decoder is inactive. Where a call
stays active from some turn on, a tick comes at that turn or later. -/
def WeaklyFair (ops : Schedule) (s : State) : Prop :=
  ∀ n, (∀ m, n ≤ m → ActiveAt ops s m) → ∃ m, n ≤ m ∧ ops m = some .decTick

/-- An infinite execution: no fault and no refusal ends it (R17, R13; log entry 26). -/
def NeverStops (ops : Schedule) (s : State) : Prop := ∀ n, ∃ t, after ops s n = .next t

/-- Two outcomes that no observer tells apart. -/
def SameObserved : Outcome → Outcome → Prop
  | .next s, .next t => s.observe = t.observe
  | .fault f, .fault g => f = g
  | .refused r, .refused q => r = q
  | _, _ => False

end Sys2Proof.Machine

namespace Sys2Proof

open Sys2Proof.Machine

/-- The wire bytes an input instruction delivers, and `none` for the others: a chunk or a token as it is, a frame
stuffed (R15 "Wire bytes"). -/
def Instr.wireBytes (cfg : Config) : Instr → Option Bytes
  | .crcInit => none
  | .crcUpdate _ => none
  | .stuff _ => none
  | .unstuff1 _ => none
  | .build _ _ _ => none
  | .decStart => none
  | .decFeed c => some c
  | .decTick => none
  | .decRead => none
  | .wFend => some [cfg.fend]
  | .wEscFend => some [cfg.fesc, cfg.tfend]
  | .wEscFesc => some [cfg.fesc, cfg.tfesc]
  | .wEscBad x => some [cfg.fesc, x]
  | .wEscPart => some [cfg.fesc]
  | .wLit b => some [b]
  | .fUnaddr c p => some (Machine.stuff cfg (frameUnaddr cfg c p))
  | .fAddr a c p => some (Machine.stuff cfg (frameAddr cfg a c p))

/-- Where an instruction stops instead of completing: `CRC_UPDATE` while `crc_acc` is UNSET (R107), and `BUILD` over
a bounded `ENC_MAX_PAYLOAD` (R148). R218 names no other stop of an operation. -/
def Instr.stops (s : State) : Instr → Bool
  | .crcInit => false
  | .crcUpdate _ => s.crcAcc.isNone
  | .stuff _ => false
  | .unstuff1 _ => false
  | .build _ _ p => overMax s.cfg p
  | .decStart => false
  | .decFeed _ => false
  | .decTick => false
  | .decRead => false
  | .wFend => false
  | .wEscFend => false
  | .wEscFesc => false
  | .wEscBad _ => false
  | .wEscPart => false
  | .wLit _ => false
  | .fUnaddr _ _ => false
  | .fAddr _ _ _ => false

end Sys2Proof

namespace Sys2Proof.Machine

/-- The invariants of R38, clause by clause. -/
structure Inv (s : State) : Prop where
  /-- (a) -/
  payloadFits : s.decPayload.length ≤ s.decLen.toNat
  /-- (b) -/
  inactiveBuf : s.decPhase.active = false → s.decBuf = []
  /-- (c) -/
  seekBuf : s.decPhase = .seekDelim → s.cfg.fend ∉ s.decBuf
  /-- (d) -/
  frameBuf : s.decPhase.inFrame = true → s.decBuf = [] ∨ s.decBuf = [s.cfg.fesc]
  /-- (e) -/
  dataShort : s.decPhase = .data → s.decPayload.length < s.decLen.toNat
  /-- (f) -/
  okIff : s.resKind = .ok ↔ s.decPhase = .doneOk
  timeoutIff : s.resKind = .timeout ↔ s.decPhase = .doneTimeout

/-- The ranges of the registers: `dec_elapsed` (R29), `res_payload` (R31 and its row in R20), and what an event can
hold (R205). -/
structure Bounds (s : State) : Prop where
  elapsedLe : s.decElapsed ≤ max s.cfg.deadlineTicks 1
  activeElapsed : s.decPhase.active = true → s.decElapsed < max s.cfg.deadlineTicks 1
  emptyUnlessOk : s.resKind ≠ .ok → s.resPayload = []
  resultFits : s.resPayload.length ≤ 255
  mismatchDiffers : ∀ r e, Event.crcMismatch r e ∈ s.evLog → r ≠ e
  badEscapePhase : ∀ p x, Event.badEscape p x ∈ s.evLog → 2 ≤ p.toNat ∧ p.toNat ≤ 5
  badEscapeFollower : ∀ p x, Event.badEscape p x ∈ s.evLog → x ≠ s.cfg.tfend ∧ x ≠ s.cfg.tfesc

end Sys2Proof.Machine
end

