-- ==== Sys2Proof/Certificates/Slice0/Obligations.lean ====
section
/-! DEFINITION. The statements for the provers. A docstring says which rules a statement formalises; where the spec
marks a rule "[derived: …]", "[from general knowledge …]" or leaves it to the model, the docstring says so. -/

open Sys2Proof Sys2Proof.Machine

namespace Sys2Proof.Claims

/-- The generator loop of R103 for one entry: eight times, shift right and fold in `0x8C` when bit 0 was set. -/
def crcGenerated (i : Byte) : Byte :=
  (fun c : Byte => if c.getLsbD 0 then (c >>> 1) ^^^ 0x8C else c >>> 1)^[8] i

/-- `CRC8_TABLE` is a permutation of 0 to 255 (R106). -/
def TablePermutation (cfg : Config) : Prop := ∀ x y : Byte, tableAt cfg x = tableAt cfg y → x = y

/-- The byte a token yields (the "yields" column of R73); `none` where it yields none. -/
def yields (cfg : Config) : Instr → Option Byte
  | .crcInit => none
  | .crcUpdate _ => none
  | .stuff _ => none
  | .unstuff1 _ => none
  | .build _ _ _ => none
  | .decStart => none
  | .decFeed _ => none
  | .decTick => none
  | .decRead => none
  | .wFend => none
  | .wEscFend => some cfg.fend
  | .wEscFesc => some cfg.fesc
  | .wEscBad _ => none
  | .wEscPart => none
  | .wLit b => if b = cfg.fesc then none else some b
  | .fUnaddr _ _ => none
  | .fAddr _ _ _ => none

/-- A byte `FEND` is `W.FEND` outside a frame (R74) and `W.LIT` inside one (R73); every other encoding reads the
same in both places. -/
def readsBack (cfg : Config) (inFrame : Bool) : Instr → Prop
  | .crcInit => True
  | .crcUpdate _ => True
  | .stuff _ => True
  | .unstuff1 _ => True
  | .build _ _ _ => True
  | .decStart => True
  | .decFeed _ => True
  | .decTick => True
  | .decRead => True
  | .wFend => inFrame = false
  | .wEscFend => True
  | .wEscFesc => True
  | .wEscBad _ => True
  | .wEscPart => True
  | .wLit b => b = cfg.fend → inFrame = true
  | .fUnaddr _ _ => True
  | .fAddr _ _ _ => True

/-- The state a malformed escape with follower `x` leaves, written out (R171, R172). -/
def afterBadEscape (s : State) (x : Byte) : State :=
  { s with
    decPhase := .seekDelim, decBuf := s.decBuf.drop 1, decCmd := 0, decLen := 0, decPayload := [],
    evLog := s.evLog ++ [.badEscape s.decPhase.code x] }

/-- The state an accepted frame leaves, written out (R169). -/
def afterAccept (s : State) : State :=
  { s with resKind := .ok, resPayload := s.decPayload, decPhase := .doneOk, decBuf := [] }

/-- The state a checksum mismatch leaves, written out (R170, R172). -/
def afterMismatch (s : State) (received expected : Byte) : State :=
  { s with
    decPhase := .seekDelim, decCmd := 0, decLen := 0, decPayload := [],
    evLog := s.evLog ++ [.crcMismatch received expected] }

/-- Transitions applied one after another: `n` of them are enabled from `s` and lead to `t`. -/
def Reaches (n : Nat) (s t : State) : Prop := (fun o : Option State => o.bind decStep)^[n] (some s) = some t

end Sys2Proof.Claims

open Sys2Proof.Claims

/-! Reset and configuration. -/

/-- R230: the power-on state of the spec's registers. -/
def Obligations.PowerOnState : Prop :=
  State.reset.crcAcc = none ∧ State.reset.decPhase = .idle ∧ State.reset.decBuf = [] ∧
    State.reset.decPayload = [] ∧ State.reset.resPayload = [] ∧ State.reset.evLog = [] ∧
    State.reset.decCmd = 0 ∧ State.reset.decLen = 0 ∧ State.reset.decElapsed = 0 ∧
    State.reset.resKind = .none

/-- The parameters at reset (R8), and that they are well formed (R9, R10). The values of `FESC`, `TFEND` and `TFESC`
are the spec's general-knowledge defaults (D1; log entry 2). R8 leaves `ENC_MAX_PAYLOAD` OPEN with the default
unbounded: that reset takes the default is the model's choice (log entry 5). -/
def Obligations.DefaultParameters : Prop :=
  State.reset.cfg.seed = 0xDE ∧ State.reset.cfg.fend = 0xC0 ∧ State.reset.cfg.fesc = 0xDB ∧
    State.reset.cfg.tfend = 0xDC ∧ State.reset.cfg.tfesc = 0xDD ∧
    State.reset.cfg.encMaxPayload = none ∧ State.reset.cfg.wf

/-- The default table is what the generator of R103 gives, entry by entry, and a permutation (R106). The spec marks the
table as general knowledge (D2; log entry 3). -/
def Obligations.DefaultTableIsGenerated : Prop :=
  (∀ i : Byte, crc8Table[i.toNat]? = some (crcGenerated i)) ∧ crc8Table.length = 256 ∧
    TablePermutation defaultConfig

/-- A configuration that is not well formed is refused before any operation (R9, marked derived, and R10). That a
bounded `ENC_MAX_PAYLOAD` under 255 is refused as well is the model's reading of R148 (log entry 12), and which defect
is named when there are several is its choice (log entry 24). -/
def Obligations.IllFormedConfigurationRefused : Prop :=
  ∀ s : State,
    (¬ s.cfg.distinct → step s = .refused .reservedBytesNotDistinct) ∧
    (s.cfg.distinct → s.cfg.table.length ≠ 256 → step s = .refused .crcTableNot256) ∧
    (∀ m, s.cfg.distinct → s.cfg.table.length = 256 → s.cfg.encMaxPayload = some m → m < 255 →
      step s = .refused .encMaxPayloadUnder255)

/-- R34: the configuration is never written by an operation. -/
def Obligations.ConfigurationNeverWritten : Prop :=
  ∀ (i : Instr) (s t : State), exec i s = .next t → t.cfg = s.cfg

/-! Encodings, and what a step runs. -/

/-- Every well-formed instruction, in the context its encoding has it in, is what its encoding decodes to (R90, R93,
R73, R74, R75, R76), when its operands fit the encoding; an operation record is read off the front of any stream. The byte `FEND` in the other context is
the other of its two readings. -/
def Obligations.EncodeThenDecodeGivesBack : Prop :=
  ∀ (cfg : Config) (inFrame : Bool), cfg.distinct →
    (∀ i : Instr, i.wf cfg = true → i.fits = true → readsBack cfg inFrame i →
      decode cfg inFrame (request cfg i) = .ok (i, [])) ∧
    (∀ (i : Instr) (rest : Bytes), i.wf cfg = true → i.fits = true → i.format = .op →
      decode cfg inFrame ⟨.op, encode cfg i ++ rest⟩ = .ok (i, rest)) ∧
    decode cfg true (request cfg .wFend) = .ok (.wLit cfg.fend, []) ∧
    decode cfg false (request cfg (.wLit cfg.fend)) = .ok (.wFend, [])

/-- Whatever decodes is well formed, is of the format presented, and encodes to the bytes it was read from: no bit of an
encoding is ignored. -/
def Obligations.DecodeThenEncodeGivesBack : Prop :=
  ∀ (cfg : Config) (inFrame : Bool) (r : Request) (i : Instr) (rest : Bytes),
    decode cfg inFrame r = .ok (i, rest) →
      i.wf cfg = true ∧ i.fits = true ∧ i.format = r.format ∧ encode cfg i ++ rest = r.bytes

/-- Words written out from the spec's encodings (R71, R73, R75, R76, R90, R93) decode to what they stand for. -/
def Obligations.SpecWordsDecode : Prop :=
  decodeOp [0x02, 0xC0] = .ok (.crcUpdate 0xC0, []) ∧
    decodeOp [0x03, 0x00, 0x02, 0xC0, 0x05] = .ok (.stuff [0xC0, 0x05], []) ∧
    decodeOp [0x05, 0x07, 0x01, 0x00, 0x01, 0xC0] = .ok (.build 0x07 0x01 [0xC0], []) ∧
    decodeOp [0x08, 0x09] = .ok (.decTick, [0x09]) ∧
    decodeToken defaultConfig true [0xDB, 0xDC] = .ok .wEscFend ∧
    decodeToken defaultConfig false [0xC0] = .ok .wFend ∧
    decodeFrame defaultConfig [0xC0, 0x07, 0x00, 0xD0] = .ok (.fUnaddr 0x07 []) ∧
    decodeFrame defaultConfig [0xC0, 0x81, 0x07, 0x00, 0x8A] = .ok (.fAddr 0x01 0x07 [])

/-- R92: the operation codes 0x00 and 0x0A to 0xFF select no operation and are refused. -/
def Obligations.ReservedOperationCodesRefused : Prop :=
  ∀ (s : State) (op : Byte) (rest : Bytes) (later : List Issue),
    s.cfg.wf → s.pending = .encoded ⟨.op, op :: rest⟩ :: later → op.toNat = 0x00 ∨ 0x0A ≤ op.toNat →
      step s = .refused .reservedOp

/-- When the first request decodes to `i`, the step is `exec i` with the bytes of `i` taken off the queue. The queue is
the model's own (log entry 7). -/
def Obligations.StepRunsDecodedInstruction : Prop :=
  ∀ (s : State) (r : Request) (later : List Issue) (i : Instr) (rest : Bytes),
    s.cfg.wf → s.pending = .encoded r :: later → decode s.cfg s.decPhase.inFrame r = .ok (i, rest) →
      step s = exec i
        { s with pending := if rest = [] then later else .encoded { r with bytes := rest } :: later }

/-- A well-formed instruction is the one the next step runs, issued whole, with operands of any length (R3, R91), or in
its own encoding where that holds them. An instruction issued whole that is not well formed is refused. The queue is
the model's own (log entry 7). -/
def Obligations.StepRunsIssuedInstruction : Prop :=
  ∀ (s : State) (i : Instr) (later : List Issue),
    s.cfg.wf →
    (i.wf s.cfg = true → s.pending = .whole i :: later → step s = exec i { s with pending := later }) ∧
    (i.wf s.cfg = true → i.fits = true → readsBack s.cfg s.decPhase.inFrame i →
      s.pending = .encoded (request s.cfg i) :: later → step s = exec i { s with pending := later }) ∧
    (i.wf s.cfg = false → s.pending = .whole i :: later → step s = .refused .illFormedInstruction)

/-- A program written as a stream of operation records (R93) runs as the sequence of its operations, in issue order
(R60), one step each. The queue the stream stands in, and that each step executes its first record, are the model's own
(log entry 7); that a refusal ends both runs is its choice (log entry 26). -/
def Obligations.RecordStreamRunsAsProgram : Prop :=
  ∀ (s : State) (is : List Instr) (later : List Issue),
    s.cfg.wf → is ≠ [] → (∀ i ∈ is, i.format = .op ∧ i.fits = true) →
      Host.Core.run Sys2Proof.core is.length
          { s with pending := .encoded ⟨.op, is.flatMap (encode s.cfg)⟩ :: later } =
        execAll is { s with pending := later }

/-- With nothing issued the block keeps all its state (R213). That such a step is a step at all is the model's choice
(log entry 7). -/
def Obligations.WaitsWithNothingIssued : Prop :=
  ∀ s : State, s.cfg.wf → s.pending = [] → step s = .next s

/-! The CRC generator. -/

/-- R100: `CRC_INIT` in any state. -/
def Obligations.CrcInitLoadsSeed : Prop :=
  ∀ s : State, exec .crcInit s = .next { s with crcAcc := some s.cfg.seed, out := .acc s.cfg.seed }

/-- R101, R102, R107: `CRC_UPDATE d` replaces the accumulator by the table's entry at `acc ^ d`, and faults while
`crc_acc` is UNSET. -/
def Obligations.CrcUpdateAbsorbsByte : Prop :=
  ∀ (s : State) (d : Byte),
    (s.crcAcc = none → exec (.crcUpdate d) s = .fault .crcUninitialised) ∧
    (∀ a, s.cfg.wf → s.crcAcc = some a →
      ∃ v : Byte, s.cfg.table[(a ^^^ d).toNat]? = some v ∧
        exec (.crcUpdate d) s = .next { s with crcAcc := some v, out := .acc v })

/-- The pseudo-operation `CRC8 b` (R95, R108, marked derived) leaves and outputs the fold of R104, from any state. -/
def Obligations.Crc8OperationsComputeChecksum : Prop :=
  ∀ (s : State) (b : Bytes),
    execAll (crc8Ops b) s =
      .next { s with
        crcAcc := some (b.foldl (fun acc x => tableAt s.cfg (acc ^^^ x)) s.cfg.seed),
        out := .acc (b.foldl (fun acc x => tableAt s.cfg (acc ^^^ x)) s.cfg.seed) }

/-- The laws of R105, marked derived, for any table; with the default parameters `crc8([]) = 0xDE` and the residue
is 0. -/
def Obligations.ChecksumLaws : Prop :=
  (∀ (cfg : Config) (s t : Bytes),
    crc8 cfg [] = cfg.seed ∧
    crc8 cfg (s ++ t) = t.foldl (crcStep cfg) (crc8 cfg s) ∧
    crc8 cfg (s ++ [crc8 cfg s]) = tableAt cfg 0) ∧
  crc8 defaultConfig [] = 0xDE ∧ tableAt defaultConfig 0 = 0

/-- R106 (a), marked derived: with a permutation table, changing any single byte changes the checksum. -/
def Obligations.ChangedByteChangesChecksum : Prop :=
  ∀ (cfg : Config) (pre post : Bytes) (b b' : Byte), TablePermutation cfg → b ≠ b' →
    crc8 cfg (pre ++ b :: post) ≠ crc8 cfg (pre ++ b' :: post)

/-- R106 (b) and (c), marked derived: with the default table, swapping adjacent bytes that differ by `0xF7`, or any two
bytes 127 positions apart, never changes the checksum. -/
def Obligations.UndetectedSwaps : Prop :=
  (∀ (pre post : Bytes) (a b : Byte), a ^^^ b = 0xF7 →
    crc8 defaultConfig (pre ++ a :: b :: post) = crc8 defaultConfig (pre ++ b :: a :: post)) ∧
  (∀ (pre mid post : Bytes) (a b : Byte), mid.length = 126 →
    crc8 defaultConfig (pre ++ a :: mid ++ b :: post) =
      crc8 defaultConfig (pre ++ b :: mid ++ a :: post))

/-! The byte-stuffing codec. -/

/-- R120, R123: `STUFF` copies byte 0 and escapes every later `FEND` and `FESC`; nothing else changes. -/
def Obligations.StuffEscapesAfterFirstByte : Prop :=
  ∀ s : State,
    exec (.stuff []) s = .next { s with out := .wire [] } ∧
    ∀ (h : Byte) (rest : Bytes),
      exec (.stuff (h :: rest)) s = .next { s with
        out := .wire (h :: rest.flatMap fun b =>
          if b = s.cfg.fend then [s.cfg.fesc, s.cfg.tfend]
          else if b = s.cfg.fesc then [s.cfg.fesc, s.cfg.tfesc]
          else [b]) }

/-- The invariants of the output (R121, marked derived). -/
def Obligations.StuffedOutputInvariants : Prop :=
  ∀ (cfg : Config) (s : Bytes), cfg.distinct →
    (∀ i, 1 ≤ i → (stuff cfg s)[i]? ≠ some cfg.fend) ∧
    (∀ i, 1 ≤ i → (stuff cfg s)[i]? = some cfg.fesc →
      (stuff cfg s)[i + 1]? = some cfg.tfend ∨ (stuff cfg s)[i + 1]? = some cfg.tfesc) ∧
    (stuff cfg s)[0]? = s[0]?

/-- The length of the output (R122 and R80, marked derived). -/
def Obligations.StuffedLength : Prop :=
  ∀ (cfg : Config) (s : Bytes), cfg.distinct →
    (stuff cfg s).length = s.length + s.tail.countP (fun b => b == cfg.fend || b == cfg.fesc) ∧
    s.length ≤ (stuff cfg s).length ∧ (s ≠ [] → (stuff cfg s).length ≤ 2 * s.length - 1)

/-- The round trip of the source's §8 (R130, marked derived), with `unstuff` of R129. -/
def Obligations.UnstuffInvertsStuff : Prop :=
  ∀ (cfg : Config) (b : Bytes), cfg.distinct → unstuff cfg (stuff cfg b) = some b

/-- R125 to R128: what `UNSTUFF1` outputs on every buffer; nothing else changes. -/
def Obligations.Unstuff1ReadsOneToken : Prop :=
  ∀ s : State, s.cfg.distinct →
    exec (.unstuff1 []) s = .next { s with out := .unstuffed 0 0 0 } ∧
    exec (.unstuff1 [s.cfg.fesc]) s = .next { s with out := .unstuffed 0 0 0 } ∧
    (∀ r, exec (.unstuff1 (s.cfg.fesc :: s.cfg.tfend :: r)) s =
      .next { s with out := .unstuffed 1 s.cfg.fend 2 }) ∧
    (∀ r, exec (.unstuff1 (s.cfg.fesc :: s.cfg.tfesc :: r)) s =
      .next { s with out := .unstuffed 1 s.cfg.fesc 2 }) ∧
    (∀ x r, x ≠ s.cfg.tfend → x ≠ s.cfg.tfesc →
      exec (.unstuff1 (s.cfg.fesc :: x :: r)) s = .next { s with out := .unstuffed 2 0 1 }) ∧
    (∀ b r, b ≠ s.cfg.fesc →
      exec (.unstuff1 (b :: r)) s = .next { s with out := .unstuffed 1 b 1 })

/-- More input never changes a token already read (R131, marked derived). -/
def Obligations.Unstuff1PrefixStable : Prop :=
  ∀ (s t : State) (buf x : Bytes) (k : BitVec 2) (b : Byte) (n : Nat),
    exec (.unstuff1 buf) s = .next t → t.out = .unstuffed k b n →
      (k ≠ 0 → exec (.unstuff1 (buf ++ x)) s = .next t) ∧ (k = 0 ↔ buf = [] ∨ buf = [s.cfg.fesc])

/-! The frame encoder. -/

/-- R140, R141, R143 to R147: what `BUILD` outputs, nothing else changing; over a bounded `ENC_MAX_PAYLOAD` it is
refused. -/
def Obligations.BuildAssemblesStuffedFrame : Prop :=
  ∀ (s : State) (cmd addr : Byte) (p f : Bytes),
    ((∀ m, s.cfg.encMaxPayload = some m → p.length ≤ m) →
      f = [s.cfg.fend] ++ (if addr &&& 0x7F = 0 then [] else [0x80 ||| (addr &&& 0x7F)]) ++
        [cmd &&& 0x7F] ++ [BitVec.ofNat 8 (p.length % 256)] ++ p →
      exec (.build cmd addr p) s =
        .next { s with out := .wire (stuff s.cfg (f ++ [f.foldl (crcStep s.cfg) s.cfg.seed])) }) ∧
    (∀ m, s.cfg.encMaxPayload = some m → m < p.length →
      exec (.build cmd addr p) s = .refused .payloadTooLong)

/-- The shape of what `BUILD` outputs (R149, marked derived): one leading `FEND`, every `FESC` escaped, and under the
stuffing the frame of R75 or R76, whose checksum leaves the residue `T[0]`. -/
def Obligations.BuiltFrameShape : Prop :=
  ∀ (cfg : Config) (cmd addr : Byte) (p : Bytes), cfg.distinct →
    let w := build cfg cmd addr p
    let f := if low7 addr = 0 then encode cfg (.fUnaddr (low7 cmd) p)
      else encode cfg (.fAddr (low7 addr) (low7 cmd) p)
    w.head? = some cfg.fend ∧ cfg.fend ∉ w.tail ∧
    (∀ i, w[i]? = some cfg.fesc → w[i + 1]? = some cfg.tfend ∨ w[i + 1]? = some cfg.tfesc) ∧
    unstuff cfg w = some f ∧ crc8 cfg f = tableAt cfg 0

/-! The frame decoder. -/

/-- R161: `DEC_START` in any phase. -/
def Obligations.DecStartResetsDecoder : Prop :=
  ∀ s : State, exec .decStart s = .next { s with
    decPhase := .seekDelim, decBuf := [], decCmd := 0, decLen := 0, decPayload := [],
    decElapsed := 0, resKind := .none, resPayload := [], out := .nothing }

/-- R176: in an inactive phase `DEC_FEED` and `DEC_TICK` do nothing, and only `DEC_START` leaves it. -/
def Obligations.InactiveDecoderDiscards : Prop :=
  ∀ s : State, s.decPhase = .idle ∨ s.decPhase = .doneOk ∨ s.decPhase = .doneTimeout →
    (∀ c, exec (.decFeed c) s = .next { s with out := .nothing }) ∧
    exec .decTick s = .next { s with out := .nothing } ∧
    (∀ i t, exec i s = .next t → i ≠ .decStart → t.decPhase = s.decPhase)

/-- R162, R163: `DEC_FEED` in an active phase appends its chunk and applies transitions until none is enabled. -/
def Obligations.FeedRunsToQuiescence : Prop :=
  ∀ (s : State) (c : Bytes),
    (s.decPhase.active = true → ∃ n t, Reaches n { s with decBuf := s.decBuf ++ c } t ∧
      decStep t = none ∧ exec (.decFeed c) s = .next { t with out := .nothing }) ∧
    (s.decPhase.active = false → exec (.decFeed c) s = .next { s with out := .nothing })

/-- R164: `SEEK_DELIM` drops everything up to and including the first `FEND`, and waits without one. -/
def Obligations.SeekTransition : Prop :=
  ∀ s : State, s.decPhase = .seekDelim →
    (∀ pre rest, s.decBuf = pre ++ s.cfg.fend :: rest → s.cfg.fend ∉ pre →
      decStep s = some { s with decBuf := rest, decPhase := .cmd }) ∧
    (s.cfg.fend ∉ s.decBuf → decStep s = none)

/-- R165, R166, R167: the phases `CMD`, `LEN` and `DATA`, on every outcome of the unstuffer. -/
def Obligations.FieldTransitions : Prop :=
  ∀ s : State, s.decPhase = .cmd ∨ s.decPhase = .len ∨ s.decPhase = .data →
    (s.decPhase = .data → s.decPayload.length = s.decLen.toNat →
      decStep s = some { s with decPhase := .crc }) ∧
    ((s.decPhase = .data → s.decPayload.length ≠ s.decLen.toNat) →
      (unstuff1 s.cfg s.decBuf = .need → decStep s = none) ∧
      (∀ n, unstuff1 s.cfg s.decBuf = .bad n →
        ∃ x, s.decBuf[1]? = some x ∧ decStep s = some (afterBadEscape s x)) ∧
      (∀ b n, unstuff1 s.cfg s.decBuf = .got b n →
        decStep s =
          if s.decPhase = .cmd then
            some { s with decBuf := s.decBuf.drop n, decCmd := b, decPhase := .len }
          else if s.decPhase = .len then
            some { s with decBuf := s.decBuf.drop n, decLen := b, decPayload := [], decPhase := .data }
          else some { s with decBuf := s.decBuf.drop n, decPayload := s.decPayload ++ [b] }))

/-- R168, R169, R170: the phase `CRC`, on every outcome of the unstuffer. -/
def Obligations.ChecksumTransition : Prop :=
  ∀ s : State, s.decPhase = .crc →
    (unstuff1 s.cfg s.decBuf = .need → decStep s = none) ∧
    (∀ n, unstuff1 s.cfg s.decBuf = .bad n →
      ∃ x, s.decBuf[1]? = some x ∧ decStep s = some (afterBadEscape s x)) ∧
    (∀ r n e, unstuff1 s.cfg s.decBuf = .got r n →
      e = crc8 s.cfg ([s.cfg.fend, s.decCmd, s.decLen] ++ s.decPayload) →
      decStep s = some
        (if r = e then afterAccept { s with decBuf := s.decBuf.drop n }
          else afterMismatch { s with decBuf := s.decBuf.drop n } r e))

/-- R171, R172: a malformed escape where a token is read drops the `FESC` alone, reports the phase and the follower,
and resynchronises. -/
def Obligations.MalformedEscapeResynchronises : Prop :=
  ∀ (s : State) (x : Byte) (r : Bytes),
    s.decPhase = .cmd ∨ s.decPhase = .len ∨
      (s.decPhase = .data ∧ s.decPayload.length ≠ s.decLen.toNat) ∨ s.decPhase = .crc →
    s.decBuf = s.cfg.fesc :: x :: r → x ≠ s.cfg.tfend → x ≠ s.cfg.tfesc →
      decStep s = some { s with
        decPhase := .seekDelim, decBuf := x :: r, decCmd := 0, decLen := 0, decPayload := [],
        evLog := s.evLog ++ [.badEscape s.decPhase.code x] }

/-- The bound on the transitions of one `run()` (R180, marked derived). -/
def Obligations.TransitionsBounded : Prop :=
  ∀ (s t : State) (n : Nat), Reaches n s t → n ≤ 2 * s.decBuf.length + 1

/-- Chunking invariance (R181, marked derived): from any state, feeding two chunks is feeding them as one. -/
def Obligations.ChunkingInvariance : Prop :=
  ∀ (s : State) (c₁ c₂ : Bytes), execAll [.decFeed c₁, .decFeed c₂] s = exec (.decFeed (c₁ ++ c₂)) s

/-- R173, R174: `DEC_TICK`, in an inactive phase, before the deadline and at it. -/
def Obligations.TickCountsToDeadline : Prop :=
  ∀ s : State,
    (s.decPhase.active = false → exec .decTick s = .next { s with out := .nothing }) ∧
    (s.decPhase.active = true → s.decElapsed + 1 < s.cfg.deadlineTicks →
      exec .decTick s = .next { s with decElapsed := s.decElapsed + 1, out := .nothing }) ∧
    (s.decPhase.active = true → s.cfg.deadlineTicks ≤ s.decElapsed + 1 →
      exec .decTick s = .next { s with
        decElapsed := s.decElapsed + 1, decPhase := .doneTimeout, resKind := .timeout,
        resPayload := [], decBuf := [], out := .nothing })

/-- R175: `DEC_READ` outputs the phase, the result status and the result, in the encodings of R23 and R30. -/
def Obligations.ReadReportsStatus : Prop :=
  ∀ s : State, ∃ (ph : BitVec 3) (k : BitVec 2),
    exec .decRead s = .next { s with out := .status ph k s.resPayload } ∧
    (s.decPhase = .idle ∧ ph = 0 ∨ s.decPhase = .seekDelim ∧ ph = 1 ∨ s.decPhase = .cmd ∧ ph = 2 ∨
      s.decPhase = .len ∧ ph = 3 ∨ s.decPhase = .data ∧ ph = 4 ∨ s.decPhase = .crc ∧ ph = 5 ∨
      s.decPhase = .doneOk ∧ ph = 6 ∨ s.decPhase = .doneTimeout ∧ ph = 7) ∧
    (s.resKind = .none ∧ k = 0 ∨ s.resKind = .ok ∧ k = 1 ∨ s.resKind = .timeout ∧ k = 2)

/-- The deadline bounds a call (R186, marked derived): with fewer than `D = max(DEADLINE_TICKS, 1)` ticks there is no
timeout, with `D` the call has ended, and with no input it times out exactly then. -/
def Obligations.DeadlineBoundsCall : Prop :=
  ∀ (s t : State) (is : List Instr), (∀ i ∈ is, i ≠ .decStart) →
    execAll (.decStart :: is) s = .next t →
    (is.count .decTick < max s.cfg.deadlineTicks 1 → t.decPhase ≠ .doneTimeout) ∧
    (max s.cfg.deadlineTicks 1 ≤ is.count .decTick →
      t.decPhase = .doneOk ∨ t.decPhase = .doneTimeout) ∧
    ((∀ i ∈ is, i.wireBytes s.cfg = none) →
      t.decPhase =
        if is.count .decTick < max s.cfg.deadlineTicks 1 then .seekDelim else .doneTimeout)

/-- The round trip (R184, marked derived): an unaddressed frame `BUILD` makes, fed in any chunks from `SEEK_DELIM`, is
decoded to its payload. -/
def Obligations.BuiltFrameRoundTrip : Prop :=
  ∀ (s : State) (cmd addr : Byte) (p : Bytes) (chunks : List Bytes),
    s.cfg.distinct → s.decPhase = .seekDelim → s.cfg.fend ∉ s.decBuf →
    low7 addr = 0 → p.length ≤ 255 → chunks.flatten = build s.cfg cmd addr p →
    execAll (chunks.map .decFeed) s = .next { s with
      decPhase := .doneOk, decBuf := [], decCmd := cmd &&& 0x7F,
      decLen := BitVec.ofNat 8 p.length, decPayload := p,
      resKind := .ok, resPayload := p, out := .nothing }

/-- Resynchronisation after one corrupted byte (R185, marked derived). The rule's frames are read with payloads of at
most 255 bytes, which their length field can state. The literal length token stands right after the stuffed delimiter
and command. -/
def Obligations.CorruptedByteResynchronises : Prop :=
  ∀ (s : State) (c₁ c₂ v : Byte) (p₁ p₂ w₁ w₂ : Bytes) (j : Nat),
    s.cfg.distinct → TablePermutation s.cfg → s.decPhase = .seekDelim → s.cfg.fend ∉ s.decBuf →
    p₁.length ≤ 255 → p₂.length ≤ 255 → w₁ = build s.cfg c₁ 0 p₁ → w₂ = build s.cfg c₂ 0 p₂ →
    j < w₁.length → w₁[j]? ≠ some v →
    (1 ≤ j → w₁[j]? ≠ some s.cfg.fesc → w₁[j - 1]? ≠ some s.cfg.fesc → v ≠ s.cfg.fesc →
      j ≠ (stuff s.cfg [s.cfg.fend, c₁ &&& 0x7F]).length →
      ∃ t r e, exec (.decFeed (w₁.set j v ++ w₂)) s = .next t ∧ t.decPhase = .doneOk ∧
        t.resPayload = p₂ ∧ t.evLog = s.evLog ++ [.crcMismatch r e]) ∧
    (j = 0 →
      ∃ t, exec (.decFeed (w₁.set j v ++ w₂)) s = .next t ∧ t.decPhase = .doneOk ∧
        t.resPayload = p₂ ∧ t.evLog = s.evLog)

/-- Discarding in `SEEK_DELIM` (R183, marked derived): the bytes kept there without a `FEND` change no later output or
event, whatever is executed next. Where a refusal ends the one it ends the other; that it ends an execution is the
model's choice (log entry 26). -/
def Obligations.SeekInputDiscardable : Prop :=
  ∀ (s : State) (is : List Instr), s.decPhase = .seekDelim → s.cfg.fend ∉ s.decBuf →
    SameObserved (execAll is s) (execAll is { s with decBuf := [] })

/-- A result is kept until the next `DEC_START`, and only accepting a frame or timing out writes one (R189, marked
derived). -/
def Obligations.ResultKeptUntilStart : Prop :=
  ∀ (i : Instr) (s t : State), exec i s = .next t → i ≠ .decStart →
    (s.decPhase.active = false → t.resKind = s.resKind ∧ t.resPayload = s.resPayload) ∧
    (t.resKind ≠ s.resKind ∨ t.resPayload ≠ s.resPayload →
      ((∃ w, i.wireBytes s.cfg = some w) ∧ t.decPhase = .doneOk ∧ t.resKind = .ok ∧
        t.resPayload = t.decPayload) ∨
      (i = .decTick ∧ t.decPhase = .doneTimeout ∧ t.resKind = .timeout ∧ t.resPayload = []))

/-! The wire tokens and the frame formats, executed as arrivals at the decoder (the model's choice, log entry 8). -/

/-- Every input instruction has the effect of feeding its wire bytes, in every phase (log entry 8). -/
def Obligations.InputArrivesInWireForm : Prop :=
  ∀ (i : Instr) (s : State) (w : Bytes), i.wireBytes s.cfg = some w →
    exec i s = .next { feed s w with out := .nothing } ∧ exec i s = exec (.decFeed w) s

/-- R73: the tokens inside a frame, with nothing buffered. A raw `FEND` there is a literal (R177). -/
def Obligations.TokensInsideFrame : Prop :=
  ∀ s : State, s.cfg.distinct → s.decBuf = [] →
    (∀ i b, yields s.cfg i = some b →
      (s.decPhase = .cmd →
        exec i s = .next { s with decCmd := b, decPhase := .len, out := .nothing }) ∧
      (s.decPhase = .len →
        exec i s = .next { s with
          decLen := b, decPayload := [], decPhase := if b = 0 then .crc else .data, out := .nothing }) ∧
      (s.decPhase = .data → s.decPayload.length < s.decLen.toNat →
        exec i s = .next { s with
          decPayload := s.decPayload ++ [b],
          decPhase := if s.decPayload.length + 1 = s.decLen.toNat then .crc else .data,
          out := .nothing }) ∧
      (s.decPhase = .crc →
        exec i s = .next
          (if b = crc8 s.cfg ([s.cfg.fend, s.decCmd, s.decLen] ++ s.decPayload) then
            { afterAccept s with out := .nothing }
          else { afterMismatch s b (crc8 s.cfg ([s.cfg.fend, s.decCmd, s.decLen] ++ s.decPayload)) with
            out := .nothing }))) ∧
    (s.decPhase.inFrame = true → (s.decPhase = .data → s.decPayload.length < s.decLen.toNat) →
      exec .wEscPart s = .next { s with decBuf := [s.cfg.fesc], out := .nothing } ∧
      ∀ x, x ≠ s.cfg.tfend → x ≠ s.cfg.tfesc →
        exec (.wEscBad x) s = .next { afterBadEscape s x with
          decBuf := if x = s.cfg.fend then [] else [x],
          decPhase := if x = s.cfg.fend then .cmd else .seekDelim, out := .nothing })

/-- R74: outside a frame, in `SEEK_DELIM`, a `FEND` starts one and discards all before it; escapes and literals are kept
and start nothing. -/
def Obligations.TokensOutsideFrame : Prop :=
  ∀ s : State, s.cfg.distinct → s.decPhase = .seekDelim → s.cfg.fend ∉ s.decBuf →
    exec .wFend s = .next { s with decBuf := [], decPhase := .cmd, out := .nothing } ∧
    (∀ i w, i.format = .token → i.wireBytes s.cfg = some w → s.cfg.fend ∉ w →
      exec i s = .next { s with decBuf := s.decBuf ++ w, out := .nothing }) ∧
    exec (.wEscBad s.cfg.fend) s = .next { s with decBuf := [], decPhase := .cmd, out := .nothing }

/-- R126, R235: an escape split between two deliveries is read whole: the `FESC` waits, and the byte that arrives next
completes it. -/
def Obligations.SplitEscapeJoins : Prop :=
  ∀ (s : State) (b : Byte), s.cfg.distinct → s.decPhase = .cmd → s.decBuf = [s.cfg.fesc] →
    exec (.wLit b) s =
      if b = s.cfg.tfend then
        .next { s with decBuf := [], decCmd := s.cfg.fend, decPhase := .len, out := .nothing }
      else if b = s.cfg.tfesc then
        .next { s with decBuf := [], decCmd := s.cfg.fesc, decPhase := .len, out := .nothing }
      else if b = s.cfg.fend then .next { afterBadEscape s b with decPhase := .cmd, out := .nothing }
      else .next { afterBadEscape s b with decBuf := [b], out := .nothing }

/-- An unaddressed frame (R75) arriving in `SEEK_DELIM` is decoded to its payload when its length field states it
(R184, marked derived); a longer payload is not (R148). -/
def Obligations.UnaddressedFrameDecodes : Prop :=
  ∀ (s : State) (c : BitVec 7) (p : Bytes),
    s.cfg.distinct → s.decPhase = .seekDelim → s.cfg.fend ∉ s.decBuf →
    (p.length ≤ 255 → exec (.fUnaddr c p) s = .next { s with
      decPhase := .doneOk, decBuf := [], decCmd := byteOf7 c, decLen := BitVec.ofNat 8 p.length,
      decPayload := p, resKind := .ok, resPayload := p, out := .nothing }) ∧
    (256 ≤ p.length → s.resPayload = [] →
      ∃ t, exec (.fUnaddr c p) s = .next t ∧ t.resPayload ≠ p)

/-- An addressed frame (R76) arriving in `SEEK_DELIM` is read with its address byte as the command and its command byte
as the length (R178): the bytes after those are payload until that many are read, and the next is the checksum. -/
def Obligations.AddressedFrameMisread : Prop :=
  ∀ (s : State) (a c : BitVec 7) (p body : Bytes),
    s.cfg.distinct → s.decPhase = .seekDelim → s.cfg.fend ∉ s.decBuf →
    body = lenByte p :: p ++
      [crc8 s.cfg ([s.cfg.fend, 0x80 ||| byteOf7 a, byteOf7 c, lenByte p] ++ p)] →
    (body.length ≤ c.toNat → exec (.fAddr a c p) s = .next { s with
      decPhase := if body.length = c.toNat then .crc else .data, decBuf := [],
      decCmd := 0x80 ||| byteOf7 a, decLen := byteOf7 c, decPayload := body, out := .nothing }) ∧
    (∀ r, body[c.toNat]? = some r →
      let e := crc8 s.cfg ([s.cfg.fend, 0x80 ||| byteOf7 a, byteOf7 c] ++ body.take c.toNat)
      exec (.fAddr a c p) s = .next
        (if r = e then { s with
          decPhase := .doneOk, decBuf := [], decCmd := 0x80 ||| byteOf7 a, decLen := byteOf7 c,
          decPayload := body.take c.toNat, resKind := .ok, resPayload := body.take c.toNat,
          out := .nothing }
        else { s with
          decBuf := stuffTail s.cfg (body.drop (c.toNat + 1)), decCmd := 0, decLen := 0,
          decPayload := [], evLog := s.evLog ++ [.crcMismatch r e], out := .nothing }))

/-! The whole machine. -/

/-- The invariants of R38 (marked derived) are kept by every step. -/
def Obligations.InvariantKeptByStep : Prop :=
  ∀ s t : State, Inv s → step s = .next t → Inv t

/-- The ranges of the elapsed count, the result and the events (R29, R31, R205) are kept by every step from a state that
meets the invariants of R38. -/
def Obligations.BoundsKeptByStep : Prop :=
  ∀ s t : State, Inv s → Bounds s → step s = .next t → Bounds t

/-- The invariants and the ranges hold at reset. -/
def Obligations.InvariantsAtReset : Prop := Inv State.reset ∧ Bounds State.reset

/-- The access table (R36, marked derived), as what may change under which instruction. Tokens and frames are inputs
like `DEC_FEED` (log entry 8). -/
def Obligations.AccessTable : Prop :=
  ∀ (i : Instr) (s t : State), exec i s = .next t →
    (t.crcAcc ≠ s.crcAcc → i = .crcInit ∨ ∃ d, i = .crcUpdate d) ∧
    (t.decPhase ≠ s.decPhase ∨ t.decBuf ≠ s.decBuf ∨ t.resKind ≠ s.resKind ∨
        t.resPayload ≠ s.resPayload →
      i = .decStart ∨ i = .decTick ∨ ∃ w, i.wireBytes s.cfg = some w) ∧
    (t.decCmd ≠ s.decCmd ∨ t.decLen ≠ s.decLen ∨ t.decPayload ≠ s.decPayload →
      i = .decStart ∨ ∃ w, i.wireBytes s.cfg = some w) ∧
    (t.decElapsed ≠ s.decElapsed → i = .decStart ∨ i = .decTick) ∧
    (t.evLog ≠ s.evLog → ∃ w, i.wireBytes s.cfg = some w) ∧
    t.cfg = s.cfg ∧ t.pending = s.pending

/-- R243: the CRC accumulator and the decoder do not affect each other. -/
def Obligations.CrcUnitIndependent : Prop :=
  ∀ (i : Instr) (s t : State) (a : Option Byte), exec i s = .next t →
    ((i = .crcInit ∨ ∃ d, i = .crcUpdate d) →
      t = { s with crcAcc := t.crcAcc, out := t.out }) ∧
    (i ≠ .crcInit → (∀ d, i ≠ .crcUpdate d) →
      t.crcAcc = s.crcAcc ∧ exec i { s with crcAcc := a } = .next { t with crcAcc := a })

/-- R32: the event output is append-only, and `DEC_START` does not clear it (R205). -/
def Obligations.EventLogAppendOnly : Prop :=
  ∀ (i : Instr) (s t : State), exec i s = .next t → s.evLog <+: t.evLog

/-- R218: an operation stops only as `CRC_UPDATE` with `crc_acc` UNSET or as `BUILD` over its bound; no decoder input
causes a fault. -/
def Obligations.StopsOnlyWhereStated : Prop :=
  ∀ (i : Instr) (s : State),
    (i.stops s = false → ∃ t, exec i s = .next t) ∧
    (i.stops s = true →
      (∃ d, i = .crcUpdate d ∧ s.crcAcc = none ∧ exec i s = .fault .crcUninitialised) ∨
      (∃ cmd addr p m, i = .build cmd addr p ∧ s.cfg.encMaxPayload = some m ∧ m < p.length ∧
        exec i s = .refused .payloadTooLong))

/-- `STUFF`, `UNSTUFF1`, `BUILD` and `DEC_READ` change no state but their outputs, and repeating one gives the same
output (R58, marked derived). -/
def Obligations.PureOperationsRepeat : Prop :=
  ∀ (i : Instr) (s t : State),
    (∃ b, i = .stuff b) ∨ (∃ b, i = .unstuff1 b) ∨ (∃ c a p, i = .build c a p) ∨ i = .decRead →
    exec i s = .next t → { t with out := s.out } = s ∧ exec i t = .next t

/-- The derived flags (R33, marked derived) agree with the result `DEC_READ` shows, where the invariants of R38 hold. -/
def Obligations.FlagsAgreeWithResult : Prop :=
  ∀ s : State, Inv s →
    (s.done = true ↔ s.resKind ≠ .none) ∧ (s.busy = true → s.resKind = .none) ∧
    (s.escPending = true ↔ s.decPhase.inFrame = true ∧ s.decBuf ≠ [])

/-! Executions. That the host issues through the queue is the model's own (log entry 7), and that a refusal ends an
execution is its choice (log entry 26). -/

/-- An execution (R17), finite or infinite, applies the operations the host issues one by one, each whole, in issue
order (R57, R60), whatever the length of their operands (R91): after any number of turns the outcome is that of the
operations issued so far. The queue they are issued through is the model's own (log entry 7), and that a refusal ends
the execution its choice (log entry 26). -/
def Obligations.ExecutionAppliesOperations : Prop :=
  ∀ (ops : Schedule) (s : State) (n : Nat), s.cfg.wf → s.pending = [] →
    (∀ m i, ops m = some i → i.wf s.cfg = true) →
    after ops s n = execAll ((List.range n).filterMap ops) s

/-- R245: under the weak-fairness premise every decode call ends, from any turn after which no `DEC_START` comes; and
without it, with nothing fed and no tick, the decoder stays in `SEEK_DELIM` for ever. The queue is the model's
own (log entry 7); an execution that never stops is one that no fault and, by the model's choice, no refusal ends (log
entry 26). -/
def Obligations.FairCallsEnd : Prop :=
  ∀ (ops : Schedule) (s : State), s.cfg.wf → s.pending = [] → NeverStops ops s →
    (WeaklyFair ops s → ∀ n, (∀ m, n ≤ m → ops m ≠ some .decStart) →
      ∃ m t, n ≤ m ∧ after ops s m = .next t ∧ t.decPhase.active = false) ∧
    (s.decPhase = .seekDelim →
      (∀ m i, ops m = some i → i ≠ .decTick ∧ i.wireBytes s.cfg = none) →
      ∀ m, ∃ t, after ops s m = .next t ∧ t.decPhase = .seekDelim)
end

