-- ==== Sys2Proof/Laws/Codec.lean ====
section
/-! SUPPORT. What the pure functions of Machine/Codec.lean do, one lemma for each thing they can do. -/

namespace Sys2Proof.Machine

variable {cfg : Config}

/-- The checksum is a fold, so it goes on from where a first part left it. -/
theorem crc8_append (s t : Bytes) : crc8 cfg (s ++ t) = t.foldl (crcStep cfg) (crc8 cfg s) := by
  simp [crc8]

/-- In a well-formed configuration a table read is the table's entry (R10, R51). -/
theorem tableAt_eq (h : cfg.tableSized) (i : Byte) : cfg.table[i.toNat]? = some (tableAt cfg i) := by
  have : i.toNat < cfg.table.length := by rw [h]; exact i.isLt
  simp [tableAt, this]

@[simp] theorem stuffTail_nil : stuffTail cfg [] = [] := rfl

@[simp] theorem stuffTail_cons (b : Byte) (bs : Bytes) :
    stuffTail cfg (b :: bs) = stuffByte cfg b ++ stuffTail cfg bs := rfl

@[simp] theorem stuff_nil : stuff cfg [] = [] := rfl

@[simp] theorem stuff_cons (b : Byte) (bs : Bytes) : stuff cfg (b :: bs) = b :: stuffTail cfg bs := rfl

theorem stuffTail_append (a b : Bytes) :
    stuffTail cfg (a ++ b) = stuffTail cfg a ++ stuffTail cfg b := by
  induction a with
  | nil => rfl
  | cons x xs ih => simp [ih]

/-- The unstuffer waits on an empty buffer and on a lone `FESC`, and on nothing else (R126). -/
theorem unstuff1_eq_need {buf : Bytes} :
    unstuff1 cfg buf = .need ↔ buf = [] ∨ buf = [cfg.fesc] := by
  match buf with
  | [] => simp [unstuff1]
  | [b] => by_cases h : b = cfg.fesc <;> simp [unstuff1, h]
  | b :: x :: r =>
    simp only [unstuff1]
    split_ifs <;> simp

/-- What a malformed escape looks like: `FESC`, then a follower that is neither `TFEND` nor `TFESC` (R127). -/
theorem unstuff1_eq_bad {buf : Bytes} {n : Nat} (h : unstuff1 cfg buf = .bad n) :
    n = 1 ∧ ∃ x r, buf = cfg.fesc :: x :: r ∧ x ≠ cfg.tfend ∧ x ≠ cfg.tfesc := by
  match buf with
  | [] => simp [unstuff1] at h
  | [b] => by_cases hb : b = cfg.fesc <;> simp [unstuff1, hb] at h
  | b :: x :: r =>
    simp only [unstuff1] at h
    split_ifs at h with h1 h2 h3
    subst h1
    exact ⟨by simpa using h.symm, x, r, rfl, h2, h3⟩

/-- A token that is read takes one or two bytes, all of them buffered (R125). -/
theorem unstuff1_eq_got {buf : Bytes} {b : Byte} {n : Nat} (h : unstuff1 cfg buf = .got b n) :
    1 ≤ n ∧ n ≤ buf.length ∧ n ≤ 2 := by
  match buf with
  | [] => simp [unstuff1] at h
  | [c] =>
    by_cases hc : c = cfg.fesc <;> simp [unstuff1, hc] at h
    simp [← h.2]
  | c :: x :: r =>
    simp only [unstuff1] at h
    split_ifs at h <;> simp at h <;> simp [← h.2]

/-- More input does not change a token that can already be read. -/
theorem unstuff1_append {buf : Bytes} (h : unstuff1 cfg buf ≠ .need) (x : Bytes) :
    unstuff1 cfg (buf ++ x) = unstuff1 cfg buf := by
  match buf with
  | [] => simp [unstuff1] at h
  | [c] =>
    by_cases hc : c = cfg.fesc
    · simp [unstuff1, hc] at h
    · cases x <;> simp [unstuff1, hc]
  | c :: y :: r => rfl

/-- The unstuffer reads back what the stuffer emits for one byte, whatever follows (R120, R125). -/
theorem unstuff1_stuffByte (h : cfg.distinct) (b : Byte) (rest : Bytes) :
    unstuff1 cfg (stuffByte cfg b ++ rest) = .got b (stuffByte cfg b).length := by
  obtain ⟨-, -, -, -, -, h6⟩ := h
  unfold stuffByte
  split_ifs with h1 h2
  · simp [unstuff1, h1]
  · simp [unstuff1, h2, h6.symm]
  · cases rest <;> simp [unstuff1, h2]

/-- What the stuffer emits for a byte holds no `FEND`. -/
theorem fend_not_mem_stuffByte (h : cfg.distinct) (b : Byte) : cfg.fend ∉ stuffByte cfg b := by
  obtain ⟨h1, h2, h3, -, -, -⟩ := h
  unfold stuffByte
  split_ifs with h4
  · simp [h1, h2]
  · simp [h1, h3]
  · simpa using fun h => h4 h.symm

/-- Unstuffing what the stuffer emits for a byte yields the byte, then the rest. -/
theorem unstuffTail_stuffByte (h : cfg.distinct) (b : Byte) (rest : Bytes) :
    unstuffTail cfg (stuffByte cfg b ++ rest) = (unstuffTail cfg rest).map (b :: ·) := by
  obtain ⟨-, -, -, -, -, h6⟩ := h
  unfold stuffByte
  split_ifs with h1 h2
  · simp [unstuffTail, h1]
  · simp [unstuffTail, h2, h6.symm]
  · cases rest <;> simp [unstuffTail, h2]

/-- A 16-bit length written high byte first is read back (R93). -/
theorem lenOfBytes_ofNat {n : Nat} (h : n ≤ 65535) :
    lenOfBytes (BitVec.ofNat 8 (n / 256)) (BitVec.ofNat 8 n) = n := by
  simp only [lenOfBytes, BitVec.toNat_ofNat]
  omega

/-- A sequence operand is read back, with what follows it (R93). -/
theorem readSeq_seqRecord {s : Bytes} (h : s.length ≤ 65535) (rest : Bytes) :
    readSeq (seqRecord s ++ rest) = some (s, rest) := by
  simp [readSeq, seqRecord, lenOfBytes_ofNat h]

/-- What a sequence operand was read from (R93). -/
theorem readSeq_eq_some {b s r : Bytes} (h : readSeq b = some (s, r)) :
    s.length ≤ 65535 ∧ b = seqRecord s ++ r := by
  match b with
  | [] => simp [readSeq] at h
  | [_] => simp [readSeq] at h
  | hi :: lo :: rest =>
    simp only [readSeq] at h
    split_ifs at h with hle
    obtain ⟨rfl, rfl⟩ := by simpa using h
    have h1 := hi.isLt
    have h2 := lo.isLt
    have hn : lenOfBytes hi lo = hi.toNat * 256 + lo.toNat := rfl
    have hlen : (rest.take (lenOfBytes hi lo)).length = lenOfBytes hi lo := by simpa using hle
    refine ⟨by omega, ?_⟩
    simp only [seqRecord, hlen, List.cons_append, List.take_append_drop, List.cons.injEq, and_true]
    constructor <;> apply BitVec.eq_of_toNat_eq <;> simp only [BitVec.toNat_ofNat, hn] <;> omega

end Sys2Proof.Machine
end

