-- ==== Sys2Proof/Laws/State.lean ====
section
/-! SUPPORT. One lemma per field per update of State, so that no proof unfolds a record update. -/

namespace Sys2Proof.Machine.Phase

/-! Which phases are active, and which read tokens (R23, R73). -/

@[simp] theorem active_idle : Phase.idle.active = false := rfl
@[simp] theorem active_seekDelim : Phase.seekDelim.active = true := rfl
@[simp] theorem active_cmd : Phase.cmd.active = true := rfl
@[simp] theorem active_len : Phase.len.active = true := rfl
@[simp] theorem active_data : Phase.data.active = true := rfl
@[simp] theorem active_crc : Phase.crc.active = true := rfl
@[simp] theorem active_doneOk : Phase.doneOk.active = false := rfl
@[simp] theorem active_doneTimeout : Phase.doneTimeout.active = false := rfl
@[simp] theorem inFrame_idle : Phase.idle.inFrame = false := rfl
@[simp] theorem inFrame_seekDelim : Phase.seekDelim.inFrame = false := rfl
@[simp] theorem inFrame_cmd : Phase.cmd.inFrame = true := rfl
@[simp] theorem inFrame_len : Phase.len.inFrame = true := rfl
@[simp] theorem inFrame_data : Phase.data.inFrame = true := rfl
@[simp] theorem inFrame_crc : Phase.crc.inFrame = true := rfl
@[simp] theorem inFrame_doneOk : Phase.doneOk.inFrame = false := rfl
@[simp] theorem inFrame_doneTimeout : Phase.doneTimeout.inFrame = false := rfl

/-- A phase that reads tokens is active. -/
theorem active_of_inFrame {p : Phase} (h : p.inFrame = true) : p.active = true := by
  cases p <;> simp_all

end Sys2Proof.Machine.Phase

namespace Sys2Proof.Machine.State

variable (s : State)

/-! `drive` (R13: driving an output writes the output port only) -/

@[simp] theorem drive_cfg (o : Output) : (s.drive o).cfg = s.cfg := rfl
@[simp] theorem drive_crcAcc (o : Output) : (s.drive o).crcAcc = s.crcAcc := rfl
@[simp] theorem drive_decPhase (o : Output) : (s.drive o).decPhase = s.decPhase := rfl
@[simp] theorem drive_decBuf (o : Output) : (s.drive o).decBuf = s.decBuf := rfl
@[simp] theorem drive_decCmd (o : Output) : (s.drive o).decCmd = s.decCmd := rfl
@[simp] theorem drive_decLen (o : Output) : (s.drive o).decLen = s.decLen := rfl
@[simp] theorem drive_decPayload (o : Output) : (s.drive o).decPayload = s.decPayload := rfl
@[simp] theorem drive_decElapsed (o : Output) : (s.drive o).decElapsed = s.decElapsed := rfl
@[simp] theorem drive_resKind (o : Output) : (s.drive o).resKind = s.resKind := rfl
@[simp] theorem drive_resPayload (o : Output) : (s.drive o).resPayload = s.resPayload := rfl
@[simp] theorem drive_evLog (o : Output) : (s.drive o).evLog = s.evLog := rfl
@[simp] theorem drive_out (o : Output) : (s.drive o).out = o := rfl
@[simp] theorem drive_pending (o : Output) : (s.drive o).pending = s.pending := rfl

/-! `setCrcAcc` (R21) -/

@[simp] theorem setCrcAcc_cfg (a : Byte) : (s.setCrcAcc a).cfg = s.cfg := rfl
@[simp] theorem setCrcAcc_crcAcc (a : Byte) : (s.setCrcAcc a).crcAcc = some a := rfl
@[simp] theorem setCrcAcc_decPhase (a : Byte) : (s.setCrcAcc a).decPhase = s.decPhase := rfl
@[simp] theorem setCrcAcc_decBuf (a : Byte) : (s.setCrcAcc a).decBuf = s.decBuf := rfl
@[simp] theorem setCrcAcc_decCmd (a : Byte) : (s.setCrcAcc a).decCmd = s.decCmd := rfl
@[simp] theorem setCrcAcc_decLen (a : Byte) : (s.setCrcAcc a).decLen = s.decLen := rfl
@[simp] theorem setCrcAcc_decPayload (a : Byte) : (s.setCrcAcc a).decPayload = s.decPayload := rfl
@[simp] theorem setCrcAcc_decElapsed (a : Byte) : (s.setCrcAcc a).decElapsed = s.decElapsed := rfl
@[simp] theorem setCrcAcc_resKind (a : Byte) : (s.setCrcAcc a).resKind = s.resKind := rfl
@[simp] theorem setCrcAcc_resPayload (a : Byte) : (s.setCrcAcc a).resPayload = s.resPayload := rfl
@[simp] theorem setCrcAcc_evLog (a : Byte) : (s.setCrcAcc a).evLog = s.evLog := rfl
@[simp] theorem setCrcAcc_out (a : Byte) : (s.setCrcAcc a).out = s.out := rfl
@[simp] theorem setCrcAcc_pending (a : Byte) : (s.setCrcAcc a).pending = s.pending := rfl

/-! `emit` (R205: an event is appended, nothing else changes) -/

@[simp] theorem emit_cfg (e : Event) : (s.emit e).cfg = s.cfg := rfl
@[simp] theorem emit_crcAcc (e : Event) : (s.emit e).crcAcc = s.crcAcc := rfl
@[simp] theorem emit_decPhase (e : Event) : (s.emit e).decPhase = s.decPhase := rfl
@[simp] theorem emit_decBuf (e : Event) : (s.emit e).decBuf = s.decBuf := rfl
@[simp] theorem emit_decCmd (e : Event) : (s.emit e).decCmd = s.decCmd := rfl
@[simp] theorem emit_decLen (e : Event) : (s.emit e).decLen = s.decLen := rfl
@[simp] theorem emit_decPayload (e : Event) : (s.emit e).decPayload = s.decPayload := rfl
@[simp] theorem emit_decElapsed (e : Event) : (s.emit e).decElapsed = s.decElapsed := rfl
@[simp] theorem emit_resKind (e : Event) : (s.emit e).resKind = s.resKind := rfl
@[simp] theorem emit_resPayload (e : Event) : (s.emit e).resPayload = s.resPayload := rfl
@[simp] theorem emit_evLog (e : Event) : (s.emit e).evLog = s.evLog ++ [e] := rfl
@[simp] theorem emit_out (e : Event) : (s.emit e).out = s.out := rfl
@[simp] theorem emit_pending (e : Event) : (s.emit e).pending = s.pending := rfl

/-! `appendBuf` (R24: bytes are appended at the end) -/

@[simp] theorem appendBuf_cfg (c : Bytes) : (s.appendBuf c).cfg = s.cfg := rfl
@[simp] theorem appendBuf_crcAcc (c : Bytes) : (s.appendBuf c).crcAcc = s.crcAcc := rfl
@[simp] theorem appendBuf_decPhase (c : Bytes) : (s.appendBuf c).decPhase = s.decPhase := rfl
@[simp] theorem appendBuf_decBuf (c : Bytes) : (s.appendBuf c).decBuf = s.decBuf ++ c := rfl
@[simp] theorem appendBuf_decCmd (c : Bytes) : (s.appendBuf c).decCmd = s.decCmd := rfl
@[simp] theorem appendBuf_decLen (c : Bytes) : (s.appendBuf c).decLen = s.decLen := rfl
@[simp] theorem appendBuf_decPayload (c : Bytes) : (s.appendBuf c).decPayload = s.decPayload := rfl
@[simp] theorem appendBuf_decElapsed (c : Bytes) : (s.appendBuf c).decElapsed = s.decElapsed := rfl
@[simp] theorem appendBuf_resKind (c : Bytes) : (s.appendBuf c).resKind = s.resKind := rfl
@[simp] theorem appendBuf_resPayload (c : Bytes) : (s.appendBuf c).resPayload = s.resPayload := rfl
@[simp] theorem appendBuf_evLog (c : Bytes) : (s.appendBuf c).evLog = s.evLog := rfl
@[simp] theorem appendBuf_out (c : Bytes) : (s.appendBuf c).out = s.out := rfl
@[simp] theorem appendBuf_pending (c : Bytes) : (s.appendBuf c).pending = s.pending := rfl

/-! `dropBuf` (R24: bytes are removed from the front) -/

@[simp] theorem dropBuf_cfg (n : Nat) : (s.dropBuf n).cfg = s.cfg := rfl
@[simp] theorem dropBuf_crcAcc (n : Nat) : (s.dropBuf n).crcAcc = s.crcAcc := rfl
@[simp] theorem dropBuf_decPhase (n : Nat) : (s.dropBuf n).decPhase = s.decPhase := rfl
@[simp] theorem dropBuf_decBuf (n : Nat) : (s.dropBuf n).decBuf = s.decBuf.drop n := rfl
@[simp] theorem dropBuf_decCmd (n : Nat) : (s.dropBuf n).decCmd = s.decCmd := rfl
@[simp] theorem dropBuf_decLen (n : Nat) : (s.dropBuf n).decLen = s.decLen := rfl
@[simp] theorem dropBuf_decPayload (n : Nat) : (s.dropBuf n).decPayload = s.decPayload := rfl
@[simp] theorem dropBuf_decElapsed (n : Nat) : (s.dropBuf n).decElapsed = s.decElapsed := rfl
@[simp] theorem dropBuf_resKind (n : Nat) : (s.dropBuf n).resKind = s.resKind := rfl
@[simp] theorem dropBuf_resPayload (n : Nat) : (s.dropBuf n).resPayload = s.resPayload := rfl
@[simp] theorem dropBuf_evLog (n : Nat) : (s.dropBuf n).evLog = s.evLog := rfl
@[simp] theorem dropBuf_out (n : Nat) : (s.dropBuf n).out = s.out := rfl
@[simp] theorem dropBuf_pending (n : Nat) : (s.dropBuf n).pending = s.pending := rfl

/-! `start` (R161) -/

@[simp] theorem start_cfg : (s.start).cfg = s.cfg := rfl
@[simp] theorem start_crcAcc : (s.start).crcAcc = s.crcAcc := rfl
@[simp] theorem start_decPhase : (s.start).decPhase = .seekDelim := rfl
@[simp] theorem start_decBuf : (s.start).decBuf = [] := rfl
@[simp] theorem start_decCmd : (s.start).decCmd = 0 := rfl
@[simp] theorem start_decLen : (s.start).decLen = 0 := rfl
@[simp] theorem start_decPayload : (s.start).decPayload = [] := rfl
@[simp] theorem start_decElapsed : (s.start).decElapsed = 0 := rfl
@[simp] theorem start_resKind : (s.start).resKind = .none := rfl
@[simp] theorem start_resPayload : (s.start).resPayload = [] := rfl
@[simp] theorem start_evLog : (s.start).evLog = s.evLog := rfl
@[simp] theorem start_out : (s.start).out = s.out := rfl
@[simp] theorem start_pending : (s.start).pending = s.pending := rfl

/-! `resync` (R172) -/

@[simp] theorem resync_cfg : (s.resync).cfg = s.cfg := rfl
@[simp] theorem resync_crcAcc : (s.resync).crcAcc = s.crcAcc := rfl
@[simp] theorem resync_decPhase : (s.resync).decPhase = .seekDelim := rfl
@[simp] theorem resync_decBuf : (s.resync).decBuf = s.decBuf := rfl
@[simp] theorem resync_decCmd : (s.resync).decCmd = 0 := rfl
@[simp] theorem resync_decLen : (s.resync).decLen = 0 := rfl
@[simp] theorem resync_decPayload : (s.resync).decPayload = [] := rfl
@[simp] theorem resync_decElapsed : (s.resync).decElapsed = s.decElapsed := rfl
@[simp] theorem resync_resKind : (s.resync).resKind = s.resKind := rfl
@[simp] theorem resync_resPayload : (s.resync).resPayload = s.resPayload := rfl
@[simp] theorem resync_evLog : (s.resync).evLog = s.evLog := rfl
@[simp] theorem resync_out : (s.resync).out = s.out := rfl
@[simp] theorem resync_pending : (s.resync).pending = s.pending := rfl

/-! `badEscape` (R171) -/

@[simp] theorem badEscape_cfg (n : Nat) : (s.badEscape n).cfg = s.cfg := rfl
@[simp] theorem badEscape_crcAcc (n : Nat) : (s.badEscape n).crcAcc = s.crcAcc := rfl
@[simp] theorem badEscape_decPhase (n : Nat) : (s.badEscape n).decPhase = .seekDelim := rfl
@[simp] theorem badEscape_decBuf (n : Nat) : (s.badEscape n).decBuf = s.decBuf.drop n := rfl
@[simp] theorem badEscape_decCmd (n : Nat) : (s.badEscape n).decCmd = 0 := rfl
@[simp] theorem badEscape_decLen (n : Nat) : (s.badEscape n).decLen = 0 := rfl
@[simp] theorem badEscape_decPayload (n : Nat) : (s.badEscape n).decPayload = [] := rfl
@[simp] theorem badEscape_decElapsed (n : Nat) : (s.badEscape n).decElapsed = s.decElapsed := rfl
@[simp] theorem badEscape_resKind (n : Nat) : (s.badEscape n).resKind = s.resKind := rfl
@[simp] theorem badEscape_resPayload (n : Nat) : (s.badEscape n).resPayload = s.resPayload := rfl
@[simp] theorem badEscape_evLog (n : Nat) : (s.badEscape n).evLog = s.evLog ++ [.badEscape s.decPhase.code (s.decBuf.getD 1 0)] := rfl
@[simp] theorem badEscape_out (n : Nat) : (s.badEscape n).out = s.out := rfl
@[simp] theorem badEscape_pending (n : Nat) : (s.badEscape n).pending = s.pending := rfl

/-! `accept` (R169) -/

@[simp] theorem accept_cfg : (s.accept).cfg = s.cfg := rfl
@[simp] theorem accept_crcAcc : (s.accept).crcAcc = s.crcAcc := rfl
@[simp] theorem accept_decPhase : (s.accept).decPhase = .doneOk := rfl
@[simp] theorem accept_decBuf : (s.accept).decBuf = [] := rfl
@[simp] theorem accept_decCmd : (s.accept).decCmd = s.decCmd := rfl
@[simp] theorem accept_decLen : (s.accept).decLen = s.decLen := rfl
@[simp] theorem accept_decPayload : (s.accept).decPayload = s.decPayload := rfl
@[simp] theorem accept_decElapsed : (s.accept).decElapsed = s.decElapsed := rfl
@[simp] theorem accept_resKind : (s.accept).resKind = .ok := rfl
@[simp] theorem accept_resPayload : (s.accept).resPayload = s.decPayload := rfl
@[simp] theorem accept_evLog : (s.accept).evLog = s.evLog := rfl
@[simp] theorem accept_out : (s.accept).out = s.out := rfl
@[simp] theorem accept_pending : (s.accept).pending = s.pending := rfl

/-! `crcMismatch` (R170) -/

@[simp] theorem crcMismatch_cfg (r : Byte) : (s.crcMismatch r).cfg = s.cfg := rfl
@[simp] theorem crcMismatch_crcAcc (r : Byte) : (s.crcMismatch r).crcAcc = s.crcAcc := rfl
@[simp] theorem crcMismatch_decPhase (r : Byte) : (s.crcMismatch r).decPhase = .seekDelim := rfl
@[simp] theorem crcMismatch_decBuf (r : Byte) : (s.crcMismatch r).decBuf = s.decBuf := rfl
@[simp] theorem crcMismatch_decCmd (r : Byte) : (s.crcMismatch r).decCmd = 0 := rfl
@[simp] theorem crcMismatch_decLen (r : Byte) : (s.crcMismatch r).decLen = 0 := rfl
@[simp] theorem crcMismatch_decPayload (r : Byte) : (s.crcMismatch r).decPayload = [] := rfl
@[simp] theorem crcMismatch_decElapsed (r : Byte) : (s.crcMismatch r).decElapsed = s.decElapsed := rfl
@[simp] theorem crcMismatch_resKind (r : Byte) : (s.crcMismatch r).resKind = s.resKind := rfl
@[simp] theorem crcMismatch_resPayload (r : Byte) : (s.crcMismatch r).resPayload = s.resPayload := rfl
@[simp] theorem crcMismatch_evLog (r : Byte) : (s.crcMismatch r).evLog = s.evLog ++ [.crcMismatch r s.expectedCrc] := rfl
@[simp] theorem crcMismatch_out (r : Byte) : (s.crcMismatch r).out = s.out := rfl
@[simp] theorem crcMismatch_pending (r : Byte) : (s.crcMismatch r).pending = s.pending := rfl

/-! `timeout` (R174) -/

@[simp] theorem timeout_cfg : (s.timeout).cfg = s.cfg := rfl
@[simp] theorem timeout_crcAcc : (s.timeout).crcAcc = s.crcAcc := rfl
@[simp] theorem timeout_decPhase : (s.timeout).decPhase = .doneTimeout := rfl
@[simp] theorem timeout_decBuf : (s.timeout).decBuf = [] := rfl
@[simp] theorem timeout_decCmd : (s.timeout).decCmd = s.decCmd := rfl
@[simp] theorem timeout_decLen : (s.timeout).decLen = s.decLen := rfl
@[simp] theorem timeout_decPayload : (s.timeout).decPayload = s.decPayload := rfl
@[simp] theorem timeout_decElapsed : (s.timeout).decElapsed = s.decElapsed := rfl
@[simp] theorem timeout_resKind : (s.timeout).resKind = .timeout := rfl
@[simp] theorem timeout_resPayload : (s.timeout).resPayload = [] := rfl
@[simp] theorem timeout_evLog : (s.timeout).evLog = s.evLog := rfl
@[simp] theorem timeout_out : (s.timeout).out = s.out := rfl
@[simp] theorem timeout_pending : (s.timeout).pending = s.pending := rfl

/-- The output port is driven last, so an earlier value of it is lost. -/
@[simp] theorem drive_drive (o o' : Output) : (s.drive o).drive o' = s.drive o' := rfl

/-- Appending twice is appending once (R65). -/
theorem appendBuf_appendBuf (a b : Bytes) : (s.appendBuf a).appendBuf b = s.appendBuf (a ++ b) := by
  simp [appendBuf]

end Sys2Proof.Machine.State
end

