-- ==== Sys2Proof/Laws/Run.lean ====
section
/-! SUPPORT. What one transition can do, and what `run`, `feed` and `tick` do: every later proof cites these and
does not unfold the loop. -/

namespace Sys2Proof.Machine

variable {s t : State}

/-! One transition. -/

/-- Splitting at the first delimiter (R164). -/
theorem afterFirst_eq_some {d : Byte} {b rest : Bytes} :
    afterFirst d b = some rest ↔ ∃ pre, b = pre ++ d :: rest ∧ d ∉ pre := by
  induction b with
  | nil => simp [afterFirst]
  | cons c cs ih =>
    simp only [afterFirst]
    split_ifs with h
    · subst h
      constructor
      · intro h; exact ⟨[], by simpa using h, by simp⟩
      · rintro ⟨pre, h, hp⟩
        cases pre with
        | nil => simpa using h
        | cons p ps => simp_all
    · rw [ih]
      constructor
      · rintro ⟨pre, rfl, hp⟩; exact ⟨c :: pre, rfl, by simp [hp, Ne.symm h]⟩
      · rintro ⟨pre, h', hp⟩
        cases pre with
        | nil => simp_all
        | cons p ps =>
          simp only [List.cons_append, List.cons.injEq] at h'
          exact ⟨ps, h'.2, fun hm => hp (List.mem_cons_of_mem _ hm)⟩

/-- Without a delimiter there is nothing to split at (R164). -/
theorem afterFirst_eq_none {d : Byte} {b : Bytes} : afterFirst d b = none ↔ d ∉ b := by
  induction b with
  | nil => simp [afterFirst]
  | cons c cs ih =>
    simp only [afterFirst]
    split_ifs with h
    · simp [h]
    · simp [ih, Ne.symm h]

/-- What reading one token can do (R165 to R168, R171). -/
theorem stepToken_eq_some {onByte : State → Byte → State} (h : stepToken s onByte = some t) :
    (∃ x r, s.decBuf = s.cfg.fesc :: x :: r ∧ x ≠ s.cfg.tfend ∧ x ≠ s.cfg.tfesc ∧ t = s.badEscape 1) ∨
    (∃ b n, unstuff1 s.cfg s.decBuf = .got b n ∧ t = onByte (s.dropBuf n) b) := by
  unfold stepToken at h
  split at h
  · cases h
  · rename_i n hb
    obtain ⟨rfl, x, r, h1, h2, h3⟩ := unstuff1_eq_bad hb
    exact .inl ⟨x, r, h1, h2, h3, by simpa using h.symm⟩
  · rename_i b n hg
    exact .inr ⟨b, n, hg, by simpa using h.symm⟩

/-- Reading a token waits exactly when the unstuffer does (R126). -/
theorem stepToken_eq_none {onByte : State → Byte → State} :
    stepToken s onByte = none ↔ s.decBuf = [] ∨ s.decBuf = [s.cfg.fesc] := by
  rw [← unstuff1_eq_need]
  unfold stepToken
  split <;> simp_all

/-- Everything one transition can do: the rows of the table of R160 that are no wait. -/
theorem decStep_eq_some (h : decStep s = some t) :
    (∃ pre rest, s.decPhase = .seekDelim ∧ s.decBuf = pre ++ s.cfg.fend :: rest ∧ s.cfg.fend ∉ pre ∧
      t = { s with decBuf := rest, decPhase := .cmd }) ∨
    (s.decPhase.inFrame = true ∧
      (s.decPhase = .data → s.decPayload.length ≠ s.decLen.toNat) ∧
      ∃ x r, s.decBuf = s.cfg.fesc :: x :: r ∧ x ≠ s.cfg.tfend ∧ x ≠ s.cfg.tfesc ∧
        t = s.badEscape 1) ∨
    (s.decPhase = .data ∧ s.decPayload.length = s.decLen.toNat ∧ t = { s with decPhase := .crc }) ∨
    (∃ b n, unstuff1 s.cfg s.decBuf = .got b n ∧
      ((s.decPhase = .cmd ∧ t = takeCmd (s.dropBuf n) b) ∨
       (s.decPhase = .len ∧ t = takeLen (s.dropBuf n) b) ∨
       (s.decPhase = .data ∧ s.decPayload.length ≠ s.decLen.toNat ∧ t = takeData (s.dropBuf n) b) ∨
       (s.decPhase = .crc ∧ b = s.expectedCrc ∧ t = (s.dropBuf n).accept) ∨
       (s.decPhase = .crc ∧ b ≠ s.expectedCrc ∧ t = (s.dropBuf n).crcMismatch b))) := by
  unfold decStep at h
  split at h
  · cases h
  · rename_i hp
    unfold stepSeek at h
    split at h
    · rename_i rest hr
      obtain ⟨pre, h1, h2⟩ := afterFirst_eq_some.1 hr
      exact .inl ⟨pre, rest, hp, h1, h2, by simpa using h.symm⟩
    · cases h
  · rename_i hp
    obtain hb | ⟨b, n, hg, rfl⟩ := stepToken_eq_some h
    · exact .inr (.inl ⟨by simp [hp], by simp [hp], hb⟩)
    · exact .inr (.inr (.inr ⟨b, n, hg, .inl ⟨hp, rfl⟩⟩))
  · rename_i hp
    obtain hb | ⟨b, n, hg, rfl⟩ := stepToken_eq_some h
    · exact .inr (.inl ⟨by simp [hp], by simp [hp], hb⟩)
    · exact .inr (.inr (.inr ⟨b, n, hg, .inr (.inl ⟨hp, rfl⟩)⟩))
  · rename_i hp
    split at h
    · rename_i hl
      exact .inr (.inr (.inl ⟨hp, hl, by simpa using h.symm⟩))
    · rename_i hl
      obtain hb | ⟨b, n, hg, rfl⟩ := stepToken_eq_some h
      · exact .inr (.inl ⟨by simp [hp], fun _ => hl, hb⟩)
      · exact .inr (.inr (.inr ⟨b, n, hg, .inr (.inr (.inl ⟨hp, hl, rfl⟩))⟩))
  · rename_i hp
    obtain hb | ⟨b, n, hg, rfl⟩ := stepToken_eq_some h
    · exact .inr (.inl ⟨by simp [hp], by simp [hp], hb⟩)
    · refine .inr (.inr (.inr ⟨b, n, hg, .inr (.inr (.inr ?_))⟩))
      unfold takeCrc
      have he : (s.dropBuf n).expectedCrc = s.expectedCrc := rfl
      split_ifs with hb
      · exact .inl ⟨hp, he ▸ hb, rfl⟩
      · exact .inr ⟨hp, he ▸ hb, rfl⟩
  · cases h
  · cases h

/-- Where no transition is enabled: an inactive phase, or a wait of the table of R160. -/
theorem decStep_eq_none :
    decStep s = none ↔ s.decPhase.active = false ∨
      (s.decPhase = .seekDelim ∧ s.cfg.fend ∉ s.decBuf) ∨
      (s.decPhase.inFrame = true ∧ (s.decPhase = .data → s.decPayload.length ≠ s.decLen.toNat) ∧
        (s.decBuf = [] ∨ s.decBuf = [s.cfg.fesc])) := by
  cases hp : s.decPhase <;> simp [decStep, hp, stepToken_eq_none]
  · unfold stepSeek
    rw [← afterFirst_eq_none]
    split <;> simp_all
  · split_ifs with hl <;> simp [hl, stepToken_eq_none]

/-- A transition is enabled only in an active phase. -/
theorem active_of_decStep (h : decStep s = some t) : s.decPhase.active = true := by
  cases hp : s.decPhase <;> simp [decStep, hp] at h <;> rfl

/-- The registers no transition writes (R36). -/
theorem decStep_frame (h : decStep s = some t) :
    t.cfg = s.cfg ∧ t.crcAcc = s.crcAcc ∧ t.decElapsed = s.decElapsed ∧ t.out = s.out ∧
      t.pending = s.pending := by
  obtain ⟨_, _, -, -, -, rfl⟩ | ⟨-, -, _, _, -, -, -, rfl⟩ | ⟨-, -, rfl⟩ |
    ⟨b, n, -, ⟨-, rfl⟩ | ⟨-, rfl⟩ | ⟨-, -, rfl⟩ | ⟨-, -, rfl⟩ | ⟨-, -, rfl⟩⟩ := decStep_eq_some h <;>
  exact ⟨rfl, rfl, rfl, rfl, rfl⟩

/-- A token that can be read is read the same with more input behind it. -/
theorem stepToken_appendBuf {onByte : State → Byte → State} (h : stepToken s onByte = some t) (x : Bytes)
    (hon : ∀ u b, u.decPhase = s.decPhase → onByte (u.appendBuf x) b =
      if (onByte u b).decPhase.active then (onByte u b).appendBuf x else onByte u b) :
    stepToken (s.appendBuf x) onByte =
      some (if t.decPhase.active then t.appendBuf x else t) := by
  obtain ⟨y, r, hb, h1, h2, rfl⟩ | ⟨b, n, hg, rfl⟩ := stepToken_eq_some h
  · simp [stepToken, unstuff1, hb, h1, h2, State.badEscape, State.dropBuf, State.emit, State.resync,
      State.appendBuf]
  · have hne : unstuff1 s.cfg s.decBuf ≠ .need := by simp [hg]
    have hd : (s.appendBuf x).dropBuf n = (s.dropBuf n).appendBuf x := by
      simp [State.dropBuf, State.appendBuf, List.drop_append_of_le_length (unstuff1_eq_got hg).2.1]
    simp only [stepToken, State.appendBuf_cfg, State.appendBuf_decBuf, unstuff1_append hne, hg, hd,
      hon (s.dropBuf n) b rfl]

/-- Prefix stability of a transition (R181): enabled on a buffer, it is enabled with the same effect when more bytes
follow; accepting discards them. -/
theorem decStep_appendBuf (h : decStep s = some t) (x : Bytes) :
    decStep (s.appendBuf x) = some (if t.decPhase.active then t.appendBuf x else t) := by
  cases hp : s.decPhase <;> simp only [decStep, hp, State.appendBuf_decPhase] at h ⊢
  · cases h
  · unfold stepSeek at h ⊢
    split at h
    · rename_i rest hr
      obtain ⟨pre, h1, h2⟩ := afterFirst_eq_some.1 hr
      have : afterFirst s.cfg.fend (s.decBuf ++ x) = some (rest ++ x) :=
        afterFirst_eq_some.2 ⟨pre, by simp [h1], h2⟩
      obtain rfl := Option.some.inj h
      simp [this, State.appendBuf]
    · cases h
  · exact stepToken_appendBuf h x fun u b _ => rfl
  · exact stepToken_appendBuf h x fun u b _ => rfl
  · split at h
    · rename_i hl
      obtain rfl := Option.some.inj h
      rw [if_pos (show (s.appendBuf x).decPayload.length = (s.appendBuf x).decLen.toNat from hl)]
      simp [State.appendBuf]
    · rename_i hl
      rw [if_neg (show ¬ (s.appendBuf x).decPayload.length = (s.appendBuf x).decLen.toNat from hl)]
      exact stepToken_appendBuf h x fun u b hu => by
        simp [takeData, hu, hp, State.appendBuf]
  · refine stepToken_appendBuf h x fun u b _ => ?_
    have he : (u.appendBuf x).expectedCrc = u.expectedCrc := rfl
    simp only [takeCrc, he]
    split_ifs <;> simp_all [State.accept, State.appendBuf, State.crcMismatch,
      State.resync, State.emit, State.expectedCrc]
  · cases h
  · cases h

/-! The loop. -/

/-- How many transitions can still come at most (R180). -/
def stepsLeft (s : State) : Nat :=
  if s.decPhase.active then
    2 * s.decBuf.length + (if s.decPhase = .data ∧ s.decPayload.length = s.decLen.toNat then 1 else 0)
  else 0

/-- A transition leaves fewer to come: it consumes a byte, or is the move from `DATA` to `CRC`, or ends the call. -/
theorem stepsLeft_decStep (h : decStep s = some t) : stepsLeft t < stepsLeft s := by
  have hact := active_of_decStep h
  obtain ⟨pre, rest, hp, hb, -, rfl⟩ | ⟨hf, hd, x, r, hb, -, -, rfl⟩ | ⟨hp, hl, rfl⟩ | ⟨b, n, hg, hcase⟩ :=
    decStep_eq_some h
  · simp [stepsLeft, hp, hb]; omega
  · simp only [stepsLeft, hact, hb, if_true]
    simp [hb]
    omega
  · simp [stepsLeft, hp, hl]
  · obtain ⟨hn, hle, -⟩ := unstuff1_eq_got hg
    obtain ⟨hp, rfl⟩ | ⟨hp, rfl⟩ | ⟨hp, hl, rfl⟩ | ⟨hp, -, rfl⟩ | ⟨hp, -, rfl⟩ := hcase <;>
      simp [stepsLeft, hp, takeCmd, takeLen, takeData] <;>
      (try split_ifs) <;> omega

theorem runFuel_of_none (h : decStep s = none) (n : Nat) : runFuel n s = s := by
  cases n <;> simp [runFuel, h]

/-- With enough fuel the loop does not depend on how much there is. -/
theorem runFuel_eq {n m : Nat} (hn : stepsLeft s ≤ n) (hm : stepsLeft s ≤ m) :
    runFuel n s = runFuel m s := by
  induction n generalizing s m with
  | zero =>
    have h : decStep s = none := by
      cases h : decStep s with
      | none => rfl
      | some t => have := stepsLeft_decStep h; omega
    rw [runFuel_of_none h, runFuel_of_none h]
  | succ n ih =>
    cases h : decStep s with
    | none => rw [runFuel_of_none h, runFuel_of_none h]
    | some t =>
      have := stepsLeft_decStep h
      cases m with
      | zero => omega
      | succ m =>
        simp only [runFuel, h]
        exact ih (by omega) (by omega)

theorem stepsLeft_le (s : State) : stepsLeft s ≤ 2 * s.decBuf.length + 1 := by
  unfold stepsLeft
  split_ifs <;> omega

/-- `run` with nothing enabled changes nothing. -/
theorem run_of_none (h : decStep s = none) : run s = s := runFuel_of_none h _

/-- `run` with a transition enabled is that transition, then `run`. -/
theorem run_of_some (h : decStep s = some t) : run s = run t := by
  have hlt := stepsLeft_decStep h
  have hs := stepsLeft_le s
  have ht := stepsLeft_le t
  unfold run
  rw [show runFuel (2 * s.decBuf.length + 1) s = runFuel (2 * s.decBuf.length) t by
    simp [runFuel, h]]
  exact runFuel_eq (by omega) ht

/-- Induction along the transitions `run` applies. -/
theorem run_induct {P : State → State → Prop} (stop : ∀ s, decStep s = none → P s s)
    (go : ∀ s t r, decStep s = some t → P t r → P s r) (s : State) : P s (run s) := by
  generalize hn : stepsLeft s = n
  induction n using Nat.strong_induction_on generalizing s with
  | _ n ih =>
    cases h : decStep s with
    | none => rw [run_of_none h]; exact stop s h
    | some t =>
      rw [run_of_some h]
      exact go s t _ h (ih _ (hn ▸ stepsLeft_decStep h) t rfl)

/-- No transition is enabled after `run` (R163, R236). -/
theorem decStep_run (s : State) : decStep (run s) = none :=
  run_induct (P := fun _ r => decStep r = none) (fun _ h => h) (fun _ _ _ _ h => h) s

/-- An invariant of every transition is one of `run`. -/
theorem run_preserves {P : State → Prop} (hstep : ∀ s t, P s → decStep s = some t → P t)
    (h : P s) : P (run s) :=
  run_induct (P := fun s r => P s → P r) (fun _ _ h => h) (fun s t _ hs ih h => ih (hstep s t h hs)) s h

/-- The registers `run` does not write (R36). -/
theorem run_frame (s : State) :
    (run s).cfg = s.cfg ∧ (run s).crcAcc = s.crcAcc ∧ (run s).decElapsed = s.decElapsed ∧
      (run s).out = s.out ∧ (run s).pending = s.pending := by
  refine run_induct (P := fun s r => r.cfg = s.cfg ∧ r.crcAcc = s.crcAcc ∧
    r.decElapsed = s.decElapsed ∧ r.out = s.out ∧ r.pending = s.pending) (fun _ _ => by simp) ?_ s
  intro s t r h ih
  obtain ⟨h1, h2, h3, h4, h5⟩ := decStep_frame h
  simp_all

/-! Feeding and ticking. -/

/-- An inactive phase discards its input (R176). -/
theorem feed_of_inactive (h : s.decPhase.active = false) (c : Bytes) : feed s c = s := by
  simp [feed, h]

/-- An active phase appends its input and runs (R162). -/
theorem feed_of_active (h : s.decPhase.active = true) (c : Bytes) :
    feed s c = run (s.appendBuf c) := by
  simp [feed, h]

/-- The registers `feed` does not write (R36). -/
theorem feed_frame (s : State) (c : Bytes) :
    (feed s c).cfg = s.cfg ∧ (feed s c).crcAcc = s.crcAcc ∧ (feed s c).decElapsed = s.decElapsed ∧
      (feed s c).out = s.out ∧ (feed s c).pending = s.pending := by
  unfold feed
  split_ifs
  · simpa using run_frame (s.appendBuf c)
  · simp

/-- Running, then feeding more, is running with more. -/
theorem feed_run (h : s.decPhase.active = true) (x : Bytes) :
    feed (run s) x = run (s.appendBuf x) := by
  refine (run_induct (P := fun s r => (s.decPhase.active = true → feed r x = run (s.appendBuf x)) ∧
    (decStep s = none → r = s)) (fun s _ => ⟨fun h => feed_of_active h x, fun _ => rfl⟩) ?_ s).1 h
  intro s t r hs ih
  refine ⟨fun _ => ?_, fun h => by simp [h] at hs⟩
  rw [run_of_some (decStep_appendBuf hs x)]
  split_ifs with ha
  · exact ih.1 ha
  · have ha : t.decPhase.active = false := by simpa using ha
    have hn : decStep t = none := decStep_eq_none.2 (.inl ha)
    rw [run_of_none hn, ih.2 hn, feed_of_inactive ha]

/-! The decoder reads neither the CRC accumulator, nor the elapsed count, nor the outputs, nor the queue. -/

/-- A state with every register the transitions do not read replaced. -/
def State.withOthers (s : State) (a : Option Byte) (e : Nat) (o : Output) (q : List Issue) : State :=
  { s with crcAcc := a, decElapsed := e, out := o, pending := q }

section Others

variable (a : Option Byte) (e : Nat) (o : Output) (q : List Issue)

/-- A transition takes the other registers along unread (R22, R36). -/
theorem decStep_withOthers (s : State) :
    decStep (s.withOthers a e o q) = (decStep s).map (·.withOthers a e o q) := by
  have token : ∀ f : State → Byte → State,
      (∀ u b, f (u.withOthers a e o q) b = (f u b).withOthers a e o q) →
      stepToken (s.withOthers a e o q) f = (stepToken s f).map (·.withOthers a e o q) := by
    intro f hf
    show (match unstuff1 s.cfg s.decBuf with
      | .need => none
      | .bad n => some ((s.withOthers a e o q).badEscape n)
      | .got b n => some (f ((s.withOthers a e o q).dropBuf n) b)) = _
    unfold stepToken
    cases unstuff1 s.cfg s.decBuf with
    | need => rfl
    | got b n => exact congrArg some (hf (s.dropBuf n) b)
    | bad n => rfl
  cases hp : s.decPhase <;>
    simp only [decStep, hp, show (s.withOthers a e o q).decPhase = s.decPhase from rfl, Option.map_none]
  · show (match afterFirst s.cfg.fend s.decBuf with
      | some rest => some { s.withOthers a e o q with decBuf := rest, decPhase := .cmd }
      | none => none) = _
    unfold stepSeek
    cases afterFirst s.cfg.fend s.decBuf <;> rfl
  · exact token _ fun _ _ => rfl
  · exact token _ fun _ _ => rfl
  · show (if s.decPayload.length = s.decLen.toNat then _ else _) = _
    split_ifs
    · rfl
    · exact token _ fun _ _ => rfl
  · refine token _ fun u b => ?_
    show (if b = u.expectedCrc then _ else _) = _
    unfold takeCrc
    split_ifs <;> rfl

/-- `run` takes the other registers along unread. -/
theorem run_withOthers (s : State) : run (s.withOthers a e o q) = (run s).withOthers a e o q := by
  refine run_induct (P := fun s r => run (s.withOthers a e o q) = r.withOthers a e o q)
    (fun s h => run_of_none (by rw [decStep_withOthers, h]; rfl)) ?_ s
  intro s t r h ih
  rw [run_of_some (t := t.withOthers a e o q) (by rw [decStep_withOthers, h]; rfl), ih]

/-- `feed` takes the other registers along unread (R22, R243). -/
theorem feed_withOthers (s : State) (c : Bytes) :
    feed (s.withOthers a e o q) c = (feed s c).withOthers a e o q := by
  show (if s.decPhase.active then run ((s.appendBuf c).withOthers a e o q) else _) = _
  unfold feed
  split_ifs
  · exact run_withOthers a e o q _
  · rfl

end Others

/-- What `tick` can do (R173, R174). -/
theorem tick_cases (s : State) :
    (s.decPhase.active = false ∧ tick s = s) ∨
    (s.decPhase.active = true ∧ s.decElapsed + 1 < s.cfg.deadlineTicks ∧
      tick s = { s with decElapsed := s.decElapsed + 1 }) ∨
    (s.decPhase.active = true ∧ s.cfg.deadlineTicks ≤ s.decElapsed + 1 ∧
      tick s = ({ s with decElapsed := s.decElapsed + 1 } : State).timeout) := by
  unfold tick
  split_ifs with h1
  · by_cases h2 : s.cfg.deadlineTicks ≤ s.decElapsed + 1
    · exact .inr (.inr ⟨h1, h2, if_pos h2⟩)
    · exact .inr (.inl ⟨h1, by omega, if_neg h2⟩)
  · exact .inl ⟨by simpa using h1, rfl⟩

end Sys2Proof.Machine
end

