-- ==== Sys2Proof/Laws/Exec.lean ====
section
/-! SUPPORT. Said once: what executing an instruction can do when it answers a next state, and what a step and a run of
steps can do. -/

namespace Sys2Proof.Machine

variable {s t : State}

/-- An input instruction feeds its wire bytes and drives nothing. -/
theorem exec_input {i : Instr} {w : Bytes} (h : i.wireBytes s.cfg = some w) :
    exec i s = .next ((feed s w).drive .nothing) := by
  cases i <;> simp only [Instr.wireBytes, Option.some.injEq, reduceCtorEq] at h <;> subst h <;> rfl

/-- Everything an instruction can do when it answers a next state. -/
theorem exec_next {i : Instr} (h : exec i s = .next t) :
    (∃ w, i.wireBytes s.cfg = some w ∧ t = (feed s w).drive .nothing) ∨
    (i = .decStart ∧ t = s.start.drive .nothing) ∨
    (i = .decTick ∧ t = (tick s).drive .nothing) ∨
    (i = .crcInit ∧ t = (s.setCrcAcc s.cfg.seed).drive (.acc s.cfg.seed)) ∨
    (∃ d a, i = .crcUpdate d ∧ s.crcAcc = some a ∧
      t = (s.setCrcAcc (crcStep s.cfg a d)).drive (.acc (crcStep s.cfg a d))) ∨
    (∃ b, i = .stuff b ∧ t = s.drive (.wire (stuff s.cfg b))) ∨
    (∃ b, i = .unstuff1 b ∧ t = s.drive (unstuffedOutput (unstuff1 s.cfg b))) ∨
    (∃ c a p, i = .build c a p ∧ overMax s.cfg p = false ∧ t = s.drive (.wire (build s.cfg c a p))) ∨
    (i = .decRead ∧ t = s.drive (.status s.decPhase.code s.resKind.code s.resPayload)) := by
  have input : ∀ w, i.wireBytes s.cfg = some w → ∃ w, i.wireBytes s.cfg = some w ∧
      t = (feed s w).drive .nothing := fun w hw =>
    ⟨w, hw, by rw [exec_input hw] at h; exact (Host.Outcome.next.inj h).symm⟩
  cases i with
  | crcInit => exact .inr (.inr (.inr (.inl ⟨rfl, (Host.Outcome.next.inj h).symm⟩)))
  | crcUpdate d =>
    simp only [exec, execCrcUpdate] at h
    split at h
    · cases h
    · rename_i a ha
      exact .inr (.inr (.inr (.inr (.inl ⟨d, a, rfl, ha, (Host.Outcome.next.inj h).symm⟩))))
  | stuff b => exact .inr (.inr (.inr (.inr (.inr (.inl ⟨b, rfl, (Host.Outcome.next.inj h).symm⟩)))))
  | unstuff1 b =>
    exact .inr (.inr (.inr (.inr (.inr (.inr (.inl ⟨b, rfl, (Host.Outcome.next.inj h).symm⟩))))))
  | build c a p =>
    simp only [exec, execBuild] at h
    split at h
    · cases h
    · rename_i hm
      exact .inr (.inr (.inr (.inr (.inr (.inr (.inr (.inl
        ⟨c, a, p, rfl, by simpa using hm, (Host.Outcome.next.inj h).symm⟩)))))))
  | decStart => exact .inr (.inl ⟨rfl, (Host.Outcome.next.inj h).symm⟩)
  | decTick => exact .inr (.inr (.inl ⟨rfl, (Host.Outcome.next.inj h).symm⟩))
  | decRead =>
    exact .inr (.inr (.inr (.inr (.inr (.inr (.inr (.inr ⟨rfl, (Host.Outcome.next.inj h).symm⟩)))))))
  | decFeed c => exact .inl (input _ rfl)
  | wFend => exact .inl (input _ rfl)
  | wEscFend => exact .inl (input _ rfl)
  | wEscFesc => exact .inl (input _ rfl)
  | wEscBad x => exact .inl (input _ rfl)
  | wEscPart => exact .inl (input _ rfl)
  | wLit b => exact .inl (input _ rfl)
  | fUnaddr c p => exact .inl (input _ rfl)
  | fAddr a c p => exact .inl (input _ rfl)

/-- Counting the table row by row is the length test of R10. -/
theorem hasRows_iff (n : Nat) (l : Bytes) : hasRows n l = true ↔ l.length = 16 * n := by
  fun_induction hasRows n l with
  | case1 l => simp
  | case2 n _ _ _ _ _ _ _ _ _ _ _ _ _ _ _ _ rest ih => simp only [ih, List.length_cons]; omega
  | case3 n l h =>
    simp only [Bool.false_eq_true, false_iff]
    intro hl
    obtain ⟨a, b, rfl, hb⟩ : ∃ a b, l = a ++ b ∧ a.length = 16 :=
      ⟨l.take 16, l.drop 16, by simp, by simp; omega⟩
    match a, hb with
    | [_, _, _, _, _, _, _, _, _, _, _, _, _, _, _, _], _ => exact h _ _ _ _ _ _ _ _ _ _ _ _ _ _ _ _ _ rfl

/-- The default table has 256 entries (R10, R103). -/
theorem crc8Table_length : crc8Table.length = 256 := (hasRows_iff 16 _).1 (by decide)

/-- A well-formed configuration is not refused. -/
theorem configRefusal_of_wf {c : Config} (h : c.wf) : configRefusal c = none := by
  rw [configRefusal, if_pos h.1, if_pos ((hasRows_iff 16 _).2 h.2.1), if_pos h.2.2]

/-- A well-formed instruction issued whole is fetched as it is, whatever the length of its operands (R3, R91). -/
theorem fetch_whole {i : Instr} {later : List Issue} (hc : s.cfg.wf) (hi : i.wf s.cfg = true)
    (hp : s.pending = .whole i :: later) : fetch s = .run i { s with pending := later } := by
  simp only [fetch, configRefusal_of_wf hc, hp, hi, if_true]

/-- What fetching an instruction leaves: only the queue differs. -/
theorem fetch_run {i : Instr} (h : fetch s = .run i t) : ∃ q, t = { s with pending := q } := by
  unfold fetch at h
  split at h
  · cases h
  · split at h
    · cases h
    · split at h
      · obtain ⟨rfl, rfl⟩ := by simpa using h
        exact ⟨_, rfl⟩
      · cases h
    · split at h
      · cases h
      · obtain ⟨rfl, rfl⟩ := by simpa using h
        exact ⟨_, rfl⟩

/-- Nothing is fetched only from an empty queue. -/
theorem fetch_idle (h : fetch s = .idle) : s.pending = [] := by
  unfold fetch at h
  split at h
  · cases h
  · split at h
    · assumption
    · split at h <;> cases h
    · split at h <;> cases h

/-- Everything a step can do when it answers a next state: wait, or execute the instruction it fetched. -/
theorem step_next (h : step s = .next t) :
    (s.pending = [] ∧ t = s) ∨ ∃ i q, exec i { s with pending := q } = .next t := by
  unfold step at h
  split at h
  · rename_i hf
    exact .inl ⟨fetch_idle hf, (Host.Outcome.next.inj h).symm⟩
  · cases h
  · rename_i i s' hf
    obtain ⟨q, rfl⟩ := fetch_run hf
    exact .inr ⟨i, q, h⟩

/-! The host's `run`, one step at a time. -/

theorem core_run_next {M : Host.Core} {s t : M.State} (h : M.step s = .next t) (k : Nat) :
    M.run (k + 1) s = M.run k t := by
  simp only [Host.Core.run, h]

theorem core_run_fault {M : Host.Core} {s : M.State} {f : M.Fault} (h : M.step s = .fault f) (k : Nat) :
    M.run (k + 1) s = .fault f := by
  simp only [Host.Core.run, h]

theorem core_run_refused {M : Host.Core} {s : M.State} {f : M.Refusal} (h : M.step s = .refused f) (k : Nat) :
    M.run (k + 1) s = .refused f := by
  simp only [Host.Core.run, h]

end Sys2Proof.Machine
end

