-- ==== Sys2Proof/Laws/Execution.lean ====
section
/-! SUPPORT. Issuing and taking turns: the small lemmas of Machine/Execution.lean. -/

namespace Sys2Proof.Machine

variable {ops : Schedule} {s t u : State} {n : Nat}

/-! `issue` writes the queue only. -/

@[simp] theorem State.issue_cfg (s : State) (q : Issue) : (s.issue q).cfg = s.cfg := rfl
@[simp] theorem State.issue_crcAcc (s : State) (q : Issue) : (s.issue q).crcAcc = s.crcAcc := rfl
@[simp] theorem State.issue_decPhase (s : State) (q : Issue) : (s.issue q).decPhase = s.decPhase := rfl
@[simp] theorem State.issue_decBuf (s : State) (q : Issue) : (s.issue q).decBuf = s.decBuf := rfl
@[simp] theorem State.issue_decCmd (s : State) (q : Issue) : (s.issue q).decCmd = s.decCmd := rfl
@[simp] theorem State.issue_decLen (s : State) (q : Issue) : (s.issue q).decLen = s.decLen := rfl
@[simp] theorem State.issue_decPayload (s : State) (q : Issue) : (s.issue q).decPayload = s.decPayload := rfl
@[simp] theorem State.issue_decElapsed (s : State) (q : Issue) : (s.issue q).decElapsed = s.decElapsed := rfl
@[simp] theorem State.issue_resKind (s : State) (q : Issue) : (s.issue q).resKind = s.resKind := rfl
@[simp] theorem State.issue_resPayload (s : State) (q : Issue) : (s.issue q).resPayload = s.resPayload := rfl
@[simp] theorem State.issue_evLog (s : State) (q : Issue) : (s.issue q).evLog = s.evLog := rfl
@[simp] theorem State.issue_out (s : State) (q : Issue) : (s.issue q).out = s.out := rfl
@[simp] theorem State.issue_pending (s : State) (q : Issue) : (s.issue q).pending = s.pending ++ [q] := rfl

/-! Turn by turn. -/

/-- With nothing else waiting, an instruction is executed in the turn it is issued in. -/
theorem turn_some {i : Instr} (hc : s.cfg.wf) (hp : s.pending = []) (hi : i.wf s.cfg = true) :
    turn (some i) s = exec i s := by
  have hf := fetch_whole (s := s.issue (.whole i)) (later := []) hc hi (by simp [hp])
  simp only [turn, step, hf]
  rw [← hp]
  rfl

@[simp] theorem after_zero (ops : Schedule) (s : State) : after ops s 0 = .next s := rfl

/-- While the execution goes on, the next outcome is that of the next turn. -/
theorem after_succ (h : after ops s n = .next t) : after ops s (n + 1) = turn (ops n) t := by
  simp only [after, h]

/-- An execution that is still going on was going on one turn before. -/
theorem after_succ_next (h : after ops s (n + 1) = .next u) :
    ∃ t, after ops s n = .next t ∧ turn (ops n) t = .next u := by
  simp only [after] at h
  split at h
  · rename_i t ht
    exact ⟨t, ht, h⟩
  · cases h
  · cases h

/-- A fault is what an execution answers from then on: it is recorded for the rest of the run (R13, R107). -/
theorem after_fault {f : Fault} {m : Nat} (h : after ops s n = .fault f) (hm : n ≤ m) : after ops s m = .fault f := by
  induction m, hm using Nat.le_induction with
  | base => exact h
  | succ m _ ih => simp only [after, ih]

end Sys2Proof.Machine
end

