-- ==== Sys2Proof/Laws/Frames.lean ====
section
/-! SUPPORT. What `run` does with a run of whole tokens in front of it: one lemma per phase, then a whole frame. -/

namespace Sys2Proof.Machine

/-- `e` is a whole token that reads as `b`, whatever follows it. -/
def IsToken (cfg : Config) (e : Bytes) (b : Byte) : Prop := ∀ r, unstuff1 cfg (e ++ r) = .got b e.length

/-- `w` is a sequence of whole tokens that read as `bs`. -/
inductive AreTokens (cfg : Config) : Bytes → Bytes → Prop
  | nil : AreTokens cfg [] []
  | cons {e b w bs} : IsToken cfg e b → AreTokens cfg w bs → AreTokens cfg (e ++ w) (b :: bs)

variable {cfg : Config} {s : State}

/-- What the stuffer emits for a byte is a token that reads as it (R120, R125). -/
theorem isToken_stuffByte (h : cfg.distinct) (b : Byte) : IsToken cfg (stuffByte cfg b) b :=
  unstuff1_stuffByte h b

/-- Any byte but `FESC` is a token by itself (R73). -/
theorem isToken_literal {b : Byte} (h : b ≠ cfg.fesc) : IsToken cfg [b] b := by
  intro r; cases r <;> simp [unstuff1, h]

/-- What the stuffer's loop emits is a sequence of tokens that read as its input. -/
theorem areTokens_stuffTail (h : cfg.distinct) (p : Bytes) : AreTokens cfg (stuffTail cfg p) p := by
  induction p with
  | nil => exact .nil
  | cons b bs ih => exact .cons (isToken_stuffByte h b) ih

theorem AreTokens.append {w v bs cs : Bytes} (h : AreTokens cfg w bs) (h' : AreTokens cfg v cs) :
    AreTokens cfg (w ++ v) (bs ++ cs) := by
  induction h with
  | nil => exact h'
  | cons ht _ ih => rw [List.append_assoc]; exact .cons ht ih

/-- What the stuffer's loop emits holds no `FEND` (R121). -/
theorem fend_not_mem_stuffTail (h : cfg.distinct) (p : Bytes) : cfg.fend ∉ stuffTail cfg p := by
  induction p with
  | nil => simp
  | cons b bs ih => simp [fend_not_mem_stuffByte h, ih]

/-- The length byte states a length up to 255 (R143). -/
theorem toNat_lenByte {p : Bytes} (h : p.length ≤ 255) : (lenByte p).toNat = p.length := by
  simp only [lenByte, BitVec.toNat_ofNat]
  omega

/-! One phase each. -/

/-- From `SEEK_DELIM`, past the first delimiter (R164). -/
theorem run_seek {pre r : Bytes} (hp : s.decPhase = .seekDelim) (hb : s.decBuf = pre ++ s.cfg.fend :: r)
    (hn : s.cfg.fend ∉ pre) : run s = run { s with decBuf := r, decPhase := .cmd } := by
  apply run_of_some
  simp [decStep, hp, stepSeek, afterFirst_eq_some.2 ⟨pre, hb, hn⟩]

/-- Past the command token (R165). -/
theorem run_takeCmd {e r : Bytes} {b : Byte} (hp : s.decPhase = .cmd) (hb : s.decBuf = e ++ r)
    (ht : IsToken s.cfg e b) : run s = run { s with decBuf := r, decCmd := b, decPhase := .len } := by
  apply run_of_some
  simp [decStep, hp, stepToken, hb, ht r, takeCmd, State.dropBuf]

/-- Past the length token (R166). -/
theorem run_takeLen {e r : Bytes} {b : Byte} (hp : s.decPhase = .len) (hb : s.decBuf = e ++ r)
    (ht : IsToken s.cfg e b) :
    run s = run { s with decBuf := r, decLen := b, decPayload := [], decPhase := .data } := by
  apply run_of_some
  simp [decStep, hp, stepToken, hb, ht r, takeLen, State.dropBuf]

/-- Past one payload token (R167). -/
theorem run_takeData {e r : Bytes} {b : Byte} (hp : s.decPhase = .data)
    (hl : s.decPayload.length ≠ s.decLen.toNat) (hb : s.decBuf = e ++ r) (ht : IsToken s.cfg e b) :
    run s = run { s with decBuf := r, decPayload := s.decPayload ++ [b] } := by
  apply run_of_some
  simp only [decStep, hp]
  rw [if_neg hl]
  simp [stepToken, hb, ht r, takeData, State.dropBuf, hp]

/-- A complete payload leads to the phase `CRC` (R167). -/
theorem run_dataDone (hp : s.decPhase = .data) (hl : s.decPayload.length = s.decLen.toNat) :
    run s = run { s with decPhase := .crc } := by
  apply run_of_some
  simp only [decStep, hp]
  rw [if_pos hl]

/-- Past the checksum token (R168). -/
theorem run_takeCrc {e r : Bytes} {b : Byte} (hp : s.decPhase = .crc) (hb : s.decBuf = e ++ r)
    (ht : IsToken s.cfg e b) : run s = run (takeCrc { s with decBuf := r } b) := by
  apply run_of_some
  simp [decStep, hp, stepToken, hb, ht r, State.dropBuf]

/-- Past as many payload tokens as the length still allows (R167). -/
theorem run_payload {w p : Bytes} (h : AreTokens s.cfg w p) (r pre : Bytes) (hp : s.decPhase = .data)
    (hl : pre.length + p.length ≤ s.decLen.toNat) :
    run { s with decBuf := w ++ r, decPayload := pre } =
      run { s with decBuf := r, decPayload := pre ++ p } := by
  induction h generalizing pre with
  | nil => simp
  | @cons e b w bs ht _ ih =>
    simp only [List.length_cons] at hl
    refine (run_takeData (s := { s with decBuf := (e ++ w) ++ r, decPayload := pre }) (r := w ++ r) hp
      (show pre.length ≠ s.decLen.toNat by omega) (by simp) ht).trans ?_
    simpa using ih (pre ++ [b]) (by simpa using by omega)

/-- A whole frame after its delimiter, up to its checksum's verdict. -/
theorem run_wholeFrame {eCmd eLen w p eCrc : Bytes} {c l k : Byte} (hp : s.decPhase = .cmd)
    (hc : IsToken s.cfg eCmd c) (hlen : IsToken s.cfg eLen l) (hpt : AreTokens s.cfg w p)
    (hk : IsToken s.cfg eCrc k) (hl : p.length = l.toNat) (r : Bytes)
    (hb : s.decBuf = eCmd ++ (eLen ++ (w ++ (eCrc ++ r)))) :
    run s = run (takeCrc
      { s with decBuf := r, decCmd := c, decLen := l, decPayload := p, decPhase := .crc } k) := by
  rw [run_takeCmd hp hb hc]
  refine (run_takeLen (s := { s with decBuf := _, decCmd := c, decPhase := .len }) rfl rfl hlen).trans ?_
  refine (run_payload
    (s := { s with decBuf := [], decCmd := c, decLen := l, decPayload := [], decPhase := .data })
    hpt (eCrc ++ r) [] rfl (by simp [hl])).trans ?_
  refine (run_dataDone
    (s := { s with decBuf := _, decCmd := c, decLen := l, decPayload := p, decPhase := .data }) rfl hl).trans ?_
  exact run_takeCrc
    (s := { s with decBuf := _, decCmd := c, decLen := l, decPayload := p, decPhase := .crc }) rfl rfl hk

end Sys2Proof.Machine
end

