-- ==== Sys2Proof/Laws/PerInstr.lean ====
section
/-! SUPPORT. What holds of every instruction as syntax, one lemma per constructor: no instruction has an empty
encoding, so a stream of records is used up only by executing its last one. -/

namespace Sys2Proof.Laws.EncodeNonempty

/-- An instruction's encoding has at least one byte, whatever the configuration (R90, R73, R75, R76). -/
def Statement (i : Instr) : Prop := ∀ cfg, encode cfg i ≠ []

theorem crcInit : Statement .crcInit := fun _ => List.cons_ne_nil _ _
theorem crcUpdate (d : Byte) : Statement (.crcUpdate d) := fun _ => List.cons_ne_nil _ _
theorem stuff (s : Bytes) : Statement (.stuff s) := fun _ => List.cons_ne_nil _ _
theorem unstuff1 (buf : Bytes) : Statement (.unstuff1 buf) := fun _ => List.cons_ne_nil _ _
theorem build (cmd addr : Byte) (payload : Bytes) : Statement (.build cmd addr payload) := fun _ => List.cons_ne_nil _ _
theorem decStart : Statement .decStart := fun _ => List.cons_ne_nil _ _
theorem decFeed (chunk : Bytes) : Statement (.decFeed chunk) := fun _ => List.cons_ne_nil _ _
theorem decTick : Statement .decTick := fun _ => List.cons_ne_nil _ _
theorem decRead : Statement .decRead := fun _ => List.cons_ne_nil _ _
theorem wFend : Statement .wFend := fun _ => List.cons_ne_nil _ _
theorem wEscFend : Statement .wEscFend := fun _ => List.cons_ne_nil _ _
theorem wEscFesc : Statement .wEscFesc := fun _ => List.cons_ne_nil _ _
theorem wEscBad (x : Byte) : Statement (.wEscBad x) := fun _ => List.cons_ne_nil _ _
theorem wEscPart : Statement .wEscPart := fun _ => List.cons_ne_nil _ _
theorem wLit (b : Byte) : Statement (.wLit b) := fun _ => List.cons_ne_nil _ _
theorem fUnaddr (c : BitVec 7) (p : Bytes) : Statement (.fUnaddr c p) := fun _ => List.cons_ne_nil _ _
theorem fAddr (a c : BitVec 7) (p : Bytes) : Statement (.fAddr a c p) := fun _ => List.cons_ne_nil _ _

end Sys2Proof.Laws.EncodeNonempty
end

