-- ==== Sys2Proof/Tests/Slice0.lean ====
section
/-! SUPPORT. Tests with expected results taken from spec/95_test_vectors.md or worked by hand from the rules, and one
witness for the hypotheses of every obligation that has some. -/

namespace Sys2Proof.Tests

open Sys2Proof.Machine Sys2Proof.Claims

/-! Helpers: the configuration of the vectors (`DEADLINE_TICKS = 3`), a decoder in a given place, and the next state of
an outcome. -/

def cfg3 : Config := { defaultConfig with deadlineTicks := 3 }

def at0 : State := { State.reset with cfg := cfg3 }

def started : State := { at0 with decPhase := .seekDelim }

def next? : Outcome → Option State
  | .next t => some t
  | .fault _ => none
  | .refused _ => none

/-- What the operations output. -/
def outOf (is : List Instr) (s : State) : Option Output := (next? (execAll is s)).map (·.out)

/-- Where the operations leave the decoder: phase, result, unread bytes, events. -/
def decoderAfter (is : List Instr) (s : State) : Option (Phase × ResKind × Bytes × Bytes × List Event) :=
  (next? (execAll is s)).map fun t => (t.decPhase, t.resKind, t.resPayload, t.decBuf, t.evLog)

/-- What is read of the frame in progress: phase, command, length, payload, unread bytes. -/
def frameAfter (is : List Instr) (s : State) : Option (Phase × Byte × Byte × Bytes × Bytes) :=
  (next? (execAll is s)).map fun t => (t.decPhase, t.decCmd, t.decLen, t.decPayload, t.decBuf)

theorem seqFits_replicate (n : Nat) (b : Byte) : seqFits (List.replicate n b) = decide (n ≤ 65535) := by
  simp [seqFits]

/-! WellFormed: each check refuses an ill-formed term (R73, R76), and a record holds no more than R93 says. -/

theorem test_fits_stuff_too_long : Instr.fits (.stuff (List.replicate 65536 0)) = false :=
  (seqFits_replicate 65536 0).trans (by decide)

theorem test_fits_unstuff1_too_long : Instr.fits (.unstuff1 (List.replicate 65536 0)) = false :=
  (seqFits_replicate 65536 0).trans (by decide)

theorem test_fits_build_too_long : Instr.fits (.build 7 0 (List.replicate 65536 0)) = false :=
  (seqFits_replicate 65536 0).trans (by decide)

theorem test_fits_feed_too_long : Instr.fits (.decFeed (List.replicate 65536 0)) = false :=
  (seqFits_replicate 65536 0).trans (by decide)

theorem test_fits_longest_sequence : Instr.fits (.stuff (List.replicate 65535 0)) = true :=
  (seqFits_replicate 65535 0).trans (by decide)

theorem test_wf_esc_bad_tfend : Instr.wf cfg3 (.wEscBad 0xDC) = false := by decide

theorem test_wf_esc_bad_tfesc : Instr.wf cfg3 (.wEscBad 0xDD) = false := by decide

theorem test_wf_lit_fesc : Instr.wf cfg3 (.wLit 0xDB) = false := by decide

theorem test_wf_addr_zero : Instr.wf cfg3 (.fAddr 0 7 []) = false := by decide

/-! Decoding: one word per constructor, written out from R90, R93, R71, R73, R75 and R76; the checksums are those of
V-E1 and V-E3. -/

theorem test_decode_crc_init : decodeOp [0x01] = .ok (.crcInit, []) := by decide

theorem test_decode_crc_update : decodeOp [0x02, 0xC0] = .ok (.crcUpdate 0xC0, []) := by decide

theorem test_decode_stuff : decodeOp [0x03, 0x00, 0x02, 0xC0, 0xDB] = .ok (.stuff [0xC0, 0xDB], []) := by decide

theorem test_decode_unstuff1 : decodeOp [0x04, 0x00, 0x01, 0xDB] = .ok (.unstuff1 [0xDB], []) := by decide

theorem test_decode_build :
    decodeOp [0x05, 0x07, 0x01, 0x00, 0x02, 0x05, 0xC0] = .ok (.build 0x07 0x01 [0x05, 0xC0], []) := by decide

theorem test_decode_dec_start : decodeOp [0x06, 0x09] = .ok (.decStart, [0x09]) := by decide

theorem test_decode_dec_feed : decodeOp [0x07, 0x00, 0x00, 0x08] = .ok (.decFeed [], [0x08]) := by decide

/-- The high byte of a sequence's length comes first (R93). -/
theorem test_decode_length_high_byte_first : lenOfBytes 0x01 0x00 = 256 := by decide

theorem test_decode_dec_tick : decodeOp [0x08] = .ok (.decTick, []) := by decide

theorem test_decode_dec_read : decodeOp [0x09] = .ok (.decRead, []) := by decide

theorem test_decode_w_fend : decodeToken cfg3 false [0xC0] = .ok .wFend := by decide

theorem test_decode_w_esc_fend : decodeToken cfg3 true [0xDB, 0xDC] = .ok .wEscFend := by decide

theorem test_decode_w_esc_fesc : decodeToken cfg3 true [0xDB, 0xDD] = .ok .wEscFesc := by decide

theorem test_decode_w_esc_bad : decodeToken cfg3 true [0xDB, 0xC0] = .ok (.wEscBad 0xC0) := by decide

theorem test_decode_w_esc_part : decodeToken cfg3 true [0xDB] = .ok .wEscPart := by decide

theorem test_decode_w_lit : decodeToken cfg3 true [0xC0] = .ok (.wLit 0xC0) := by decide

theorem test_decode_f_unaddr : decodeFrame cfg3 [0xC0, 0x07, 0x00, 0xD0] = .ok (.fUnaddr 0x07 []) := by decide

theorem test_decode_f_addr : decodeFrame cfg3 [0xC0, 0x81, 0x07, 0x00, 0x8A] = .ok (.fAddr 0x01 0x07 []) := by
  decide

/-- R92. -/
theorem test_decode_reserved_op : decodeOp [0x0A] = .error .reservedOp := by decide

/-- A frame with a wrong checksum is of neither format (log entry 9). -/
theorem test_decode_frame_bad_checksum : decodeFrame cfg3 [0xC0, 0x07, 0x00, 0xD1] = .error .notAFrame := by decide

/-- The opcode table's `fixed` column puts the first byte of a two-byte token in bits 15 to 8. -/
theorem test_table_word_w_esc_bad : decodeTableWord 16 0xDB41 = some (.wEscBad 0x41) := by decide

theorem test_table_word_build : decodeTableWord 8 0x05 = some (.build 0 0 []) := by decide

/-! One operation each. -/

/-- V-C1. -/
theorem test_crc_init : outOf [.crcInit] at0 = some (.acc 0xDE) := by decide

/-- V-C2: `acc ^ d` indexes the table, first step. -/
theorem test_crc_update : outOf [.crcUpdate 0xC0] { at0 with crcAcc := some 0xDE } = some (.acc 0x82) := by decide

/-- V-C16. -/
theorem test_crc_update_unset : next? (exec (.crcUpdate 0x00) at0) = none := by decide

/-- V-B9: byte 0 is copied and every later reserved byte escaped. -/
theorem test_stuff :
    outOf [.stuff [0x00, 0xC0, 0xDB, 0xC0]] at0 = some (.wire [0x00, 0xDB, 0xDC, 0xDB, 0xDD, 0xDB, 0xDC]) := by
  decide

/-- V-B3. -/
theorem test_stuff_first_fesc : outOf [.stuff [0xDB]] at0 = some (.wire [0xDB]) := by decide

/-- V-U5. -/
theorem test_unstuff1_escape : outOf [.unstuff1 [0xDB, 0xDC, 0x22]] at0 = some (.unstuffed 1 0xC0 2) := by decide

/-- V-U6. -/
theorem test_unstuff1_malformed : outOf [.unstuff1 [0xDB, 0xC0]] at0 = some (.unstuffed 2 0 1) := by decide

/-- V-E6: address byte escaped. -/
theorem test_build_addressed :
    outOf [.build 0x07 0x40 [0x01]] at0 = some (.wire [0xC0, 0xDB, 0xDC, 0x07, 0x01, 0x01, 0x07]) := by decide

/-- V-E5: `addr & 0x7F = 0` adds no address byte. -/
theorem test_build_masks_address : outOf [.build 0x07 0x80 []] at0 = some (.wire [0xC0, 0x07, 0x00, 0xD0]) := by
  decide

/-- R161: a result and a buffer are cleared, the events are not. -/
theorem test_dec_start :
    decoderAfter [.decStart]
      { at0 with decPhase := .doneOk, resKind := .ok, resPayload := [0x05], evLog := [.badEscape 3 0x41] } =
      some (.seekDelim, .none, [], [], [.badEscape 3 0x41]) := by decide

/-- V-D7: the malformed escape is dropped, and the next frame is decoded. -/
theorem test_dec_feed_bad_escape :
    decoderAfter [.decFeed [0xC0, 0x07, 0xDB, 0x41, 0xC0, 0x07, 0x00, 0xD0]] started =
      some (.doneOk, .ok, [], [], [.badEscape 3 0x41]) := by decide

/-- V-D9. -/
theorem test_dec_feed_addressed :
    frameAfter [.decFeed [0xC0, 0x81, 0x07, 0x00, 0x8A]] started =
      some (.data, 0x81, 0x07, [0x00, 0x8A], []) := by decide

/-- V-D11: the third tick ends the call. -/
theorem test_dec_tick_deadline :
    decoderAfter [.decTick] { started with decElapsed := 2, decBuf := [0x11] } =
      some (.doneTimeout, .timeout, [], [], []) := by decide

/-- V-D11a. -/
theorem test_dec_tick_before : decoderAfter [.decTick] { started with decElapsed := 1 } =
    some (.seekDelim, .none, [], [], []) := by decide

/-- R175. -/
theorem test_dec_read :
    outOf [.decRead] { at0 with decPhase := .doneOk, resKind := .ok, resPayload := [0x05, 0xC0] } =
      some (.status 6 1 [0x05, 0xC0]) := by decide

/-- R74, V-D4: garbage before the delimiter is dropped. -/
theorem test_w_fend : frameAfter [.wFend] { started with decBuf := [0x11, 0xDB] } = some (.cmd, 0, 0, [], []) := by
  decide

/-- R73: an escape in `LEN`, V-E18's length byte. -/
theorem test_w_esc_fend : frameAfter [.wEscFend] { started with decPhase := .len } =
    some (.data, 0, 0xC0, [], []) := by decide

/-- V-E19's length byte. -/
theorem test_w_esc_fesc : frameAfter [.wEscFesc] { started with decPhase := .len } =
    some (.data, 0, 0xDB, [], []) := by decide

/-- V-D8: the follower is the next frame's delimiter. -/
theorem test_w_esc_bad_fend :
    (next? (exec (.wEscBad 0xC0) { started with decPhase := .len, decCmd := 0x07 })).map
      (fun t => (t.decPhase, t.decCmd, t.decBuf, t.evLog)) =
      some (.cmd, 0, [], [.badEscape 3 0xC0]) := by decide

/-- V-D20. -/
theorem test_w_esc_part : frameAfter [.wEscPart] { started with decPhase := .len, decCmd := 0x07 } =
    some (.len, 0x07, 0, [], [0xDB]) := by decide

/-- V-D23: a raw `FEND` inside a frame is data. -/
theorem test_w_lit_fend : frameAfter [.wLit 0xC0] { started with decPhase := .cmd } =
    some (.len, 0xC0, 0, [], []) := by decide

/-- V-D15: a wrong checksum. -/
theorem test_w_lit_checksum :
    decoderAfter [.wLit 0xD1] { started with decPhase := .crc, decCmd := 0x07 } =
      some (.seekDelim, .none, [], [], [.crcMismatch 0xD1 0xD0]) := by decide

/-- V-D2's frame, delivered whole. -/
theorem test_f_unaddr : decoderAfter [.fUnaddr 0x07 [0x05, 0xC0]] started =
    some (.doneOk, .ok, [0x05, 0xC0], [], []) := by decide

/-- V-D9 again, as a frame. -/
theorem test_f_addr : frameAfter [.fAddr 0x01 0x07 []] started = some (.data, 0x81, 0x07, [0x00, 0x8A], []) := by
  decide

/-! Steps. -/

/-- A step takes one record off the stream and leaves the rest. -/
theorem test_step_takes_one_record :
    (next? (step { at0 with pending := [.encoded ⟨.op, [0x06, 0x08]⟩] })).map (fun t => (t.decPhase, t.pending)) =
      some (.seekDelim, [.encoded ⟨.op, [0x08]⟩]) := by decide

/-- An operand longer than any record is issued whole (R3, R91). -/
theorem test_step_whole_operand :
    step { at0 with pending := [.whole (.decFeed (List.replicate 65536 0))] } = .next at0 := rfl

/-- `FESC` is no literal (R73). -/
theorem test_step_ill_formed : next? (step { at0 with pending := [.whole (.wLit 0xDB)] }) = none := by decide

/-- A word of the opcode table runs as the first instruction after reset. -/
theorem test_step_table_word :
    (next? (step (State.reset.withFetchWord 8 0x01))).map (fun t => (t.crcAcc, t.out)) =
      some (some 0xDE, .acc 0xDE) := by decide

/-- The default table is the generator's (R103), first and last entries. -/
theorem test_crc_generated : crcGenerated 0x01 = 0x5E ∧ crcGenerated 0xFF = 0x35 := by decide

/-! Witnesses: for each obligation with hypotheses, states and operands that meet them all, one conjunct or theorem
per clause, at the edges of the ranges. -/

theorem cfg3_wf : cfg3.wf := ⟨by decide, crc8Table_length, by decide⟩

theorem cfg3_distinct : cfg3.distinct := by decide

/-- A state at each phase that can be reached with nothing read yet. -/
def inPhase (p : Phase) (buf : Bytes) : State := { at0 with decPhase := p, decBuf := buf }

theorem witness_IllFormedConfigurationRefused_distinct : ¬ ({ cfg3 with fesc := 0xC0 } : Config).distinct := by decide

theorem witness_IllFormedConfigurationRefused_table :
    ({ cfg3 with table := cfg3.table.take 255 } : Config).distinct ∧ (cfg3.table.take 255).length ≠ 256 := by
  refine ⟨by decide, ?_⟩
  rw [List.length_take]
  omega

theorem witness_IllFormedConfigurationRefused_bound :
    ({ cfg3 with encMaxPayload := some 254 } : Config).distinct ∧ cfg3.table.length = 256 ∧ 254 < 255 :=
  ⟨by decide, crc8Table_length, by decide⟩

/-- Of ConfigurationNeverWritten, AccessTable, EventLogAppendOnly and CrcUnitIndependent's first clause. -/
theorem witness_exec_next : exec .crcInit State.reset =
    .next { State.reset with crcAcc := some 0xDE, out := .acc 0xDE } := rfl

theorem witness_EncodeThenDecodeGivesBack :
    cfg3.distinct ∧ (Instr.wf cfg3 (.fAddr 127 0 [0xC0]) = true ∧ readsBack cfg3 false (.fAddr 127 0 [0xC0])) ∧
      (Instr.wf cfg3 (.wLit 0xC0) = true ∧ readsBack cfg3 true (.wLit 0xC0)) ∧
      (Instr.wf cfg3 .wFend = true ∧ readsBack cfg3 false .wFend) ∧
      (Instr.fits (.stuff [0xC0]) = true ∧ Instr.format (.stuff [0xC0]) = .op) :=
  ⟨by decide, ⟨by decide, trivial⟩, ⟨by decide, fun _ => rfl⟩, ⟨by decide, rfl⟩, by decide, rfl⟩

theorem witness_DecodeThenEncodeGivesBack :
    decode cfg3 true ⟨.token, [0xDB, 0xC0]⟩ = .ok (.wEscBad 0xC0, []) ∧
      decode cfg3 true ⟨.op, [0x06, 0x08]⟩ = .ok (.decStart, [0x08]) := by decide

theorem witness_ReservedOperationCodesRefused :
    ({ at0 with pending := [.encoded ⟨.op, [0x0A]⟩] } : State).cfg.wf ∧
      ((0x00 : Byte).toNat = 0x00 ∧ 0x0A ≤ (0x0A : Byte).toNat ∧ 0x0A ≤ (0xFF : Byte).toNat) :=
  ⟨cfg3_wf, by decide⟩

theorem witness_StepRunsDecodedInstruction :
    at0.cfg.wf ∧ decode at0.cfg at0.decPhase.inFrame ⟨.op, [0x06, 0x08]⟩ = .ok (.decStart, [0x08]) ∧
      decode at0.cfg at0.decPhase.inFrame ⟨.op, [0x08]⟩ = .ok (.decTick, []) :=
  ⟨cfg3_wf, by decide⟩

/-- In its encoding, whole with an operand that no record holds, and whole but ill formed. -/
theorem witness_StepRunsIssuedInstruction :
    at0.cfg.wf ∧
      (Instr.wf at0.cfg .wFend = true ∧ Instr.fits .wFend = true ∧ readsBack at0.cfg at0.decPhase.inFrame .wFend) ∧
      (Instr.wf at0.cfg (.decFeed (List.replicate 65536 0)) = true ∧
        Instr.fits (.decFeed (List.replicate 65536 0)) = false) ∧
      Instr.wf at0.cfg (.wLit 0xDB) = false :=
  ⟨cfg3_wf, ⟨rfl, rfl, rfl⟩, ⟨rfl, test_fits_feed_too_long⟩, by decide⟩

theorem witness_RecordStreamRunsAsProgram :
    at0.cfg.wf ∧ [Instr.decStart, .decFeed [0xC0]] ≠ [] ∧
      ∀ i ∈ [Instr.decStart, .decFeed [0xC0]], i.format = .op ∧ i.fits = true :=
  ⟨cfg3_wf, by decide, by decide⟩

theorem witness_WaitsWithNothingIssued : at0.cfg.wf ∧ at0.pending = [] := ⟨cfg3_wf, rfl⟩

theorem witness_CrcUpdateAbsorbsByte :
    at0.crcAcc = none ∧ at0.cfg.wf ∧ ({ at0 with crcAcc := some 0xFF } : State).crcAcc = some 0xFF :=
  ⟨rfl, cfg3_wf, rfl⟩

/-- The identity table, a permutation that is seen to be one at once. -/
def cfgId : Config := { cfg3 with table := (List.range 256).map (BitVec.ofNat 8) }

theorem tableAt_cfgId (x : Byte) : tableAt cfgId x = x := by
  have hx := x.isLt
  simp [tableAt, cfgId, List.getD, hx]

/-- Of ChangedByteChangesChecksum, and of the table in CorruptedByteResynchronises. -/
theorem witness_ChangedByteChangesChecksum : TablePermutation cfgId ∧ (0x00 : Byte) ≠ 0x01 :=
  ⟨fun x y h => by simpa [tableAt_cfgId] using h, by decide⟩

theorem witness_UndetectedSwaps :
    (0x00 : Byte) ^^^ 0xF7 = 0xF7 ∧ (List.replicate 126 (0x55 : Byte)).length = 126 :=
  ⟨by decide, List.length_replicate⟩

/-- Of StuffedOutputInvariants, StuffedLength, UnstuffInvertsStuff and BuiltFrameShape. -/
theorem witness_StuffedOutput :
    cfg3.distinct ∧ (stuff cfg3 [0xC0, 0xDB])[1]? = some cfg3.fesc ∧ ([0xC0] : Bytes) ≠ [] := by decide

theorem witness_Unstuff1ReadsOneToken :
    at0.cfg.distinct ∧ ((0xC0 : Byte) ≠ at0.cfg.tfend ∧ (0xC0 : Byte) ≠ at0.cfg.tfesc) ∧
      (0xDC : Byte) ≠ at0.cfg.fesc := by decide

theorem witness_Unstuff1PrefixStable :
    (exec (.unstuff1 [0xDB, 0xDC]) at0 = .next { at0 with out := .unstuffed 1 0xC0 2 }) ∧
      (exec (.unstuff1 [0xDB]) at0 = .next { at0 with out := .unstuffed 0 0 0 }) := ⟨rfl, rfl⟩

/-- Unbounded, and a payload exactly at the bound. -/
theorem witness_BuildAssemblesStuffedFrame :
    (∀ m, at0.cfg.encMaxPayload = some m → ([0xC0] : Bytes).length ≤ m) ∧
      (∀ m, ({ cfg3 with encMaxPayload := some 255 } : Config).encMaxPayload = some m →
        (List.replicate 255 (0x11 : Byte)).length ≤ m) := by
  refine ⟨by decide, fun m h => ?_⟩
  obtain rfl := Option.some.inj h
  rw [List.length_replicate]

theorem witness_BuildAssemblesStuffedFrame_refused :
    ({ cfg3 with encMaxPayload := some 255 } : Config).encMaxPayload = some 255 ∧
      255 < (List.replicate 256 (0x11 : Byte)).length := by
  refine ⟨rfl, ?_⟩
  rw [List.length_replicate]
  omega

theorem witness_InactiveDecoderDiscards :
    (inPhase .idle []).decPhase = .idle ∧ (inPhase .doneOk []).decPhase = .doneOk ∧
      (inPhase .doneTimeout []).decPhase = .doneTimeout ∧
      exec .decTick (inPhase .doneOk []) = .next (inPhase .doneOk []) ∧ Instr.decTick ≠ .decStart :=
  ⟨rfl, rfl, rfl, rfl, by decide⟩

theorem witness_FeedRunsToQuiescence :
    started.decPhase.active = true ∧ (inPhase .crc []).decPhase.active = true ∧ at0.decPhase.active = false := by
  decide

theorem witness_SeekTransition :
    ((inPhase .seekDelim [0x11, 0xC0, 0x07]).decBuf = [0x11] ++ cfg3.fend :: [0x07] ∧ cfg3.fend ∉ [0x11]) ∧
      cfg3.fend ∉ (inPhase .seekDelim [0xDB, 0xDC]).decBuf := by decide

/-- The three outcomes of the unstuffer with a payload one byte short, and a payload that is complete. -/
theorem witness_FieldTransitions :
    let s := { inPhase .data [0xDB] with decLen := 1 }
    (s.decPayload.length ≠ s.decLen.toNat ∧ unstuff1 s.cfg s.decBuf = .need) ∧
      unstuff1 s.cfg [0xDB, 0xC0] = .bad 1 ∧ unstuff1 s.cfg [0xDB, 0xDC, 0x01] = .got 0xC0 2 ∧
      (inPhase .data []).decPayload.length = (inPhase .data []).decLen.toNat := by decide

theorem witness_ChecksumTransition :
    (inPhase .crc [0xD0]).decPhase = .crc ∧ unstuff1 cfg3 [0xD0] = .got 0xD0 1 ∧ unstuff1 cfg3 [] = .need ∧
      unstuff1 cfg3 [0xDB, 0xDB] = .bad 1 := by decide

theorem witness_MalformedEscapeResynchronises :
    ({ inPhase .data [0xDB, 0xC0] with decLen := 1 } : State).decPayload.length ≠ (1 : Byte).toNat ∧
      (inPhase .crc [0xDB, 0xC0]).decBuf = cfg3.fesc :: 0xC0 :: [] ∧ (0xC0 : Byte) ≠ cfg3.tfend ∧
      (0xC0 : Byte) ≠ cfg3.tfesc := by decide

theorem witness_TransitionsBounded :
    Reaches 1 (inPhase .seekDelim [0xC0]) (inPhase .cmd []) ∧
      Reaches 1 (inPhase .data []) (inPhase .crc []) := ⟨rfl, rfl⟩

/-- Both sides of the deadline, an elapsed count already past it, and an inactive phase. -/
theorem witness_TickCountsToDeadline :
    at0.decPhase.active = false ∧ started.decPhase.active = true ∧
      ({ started with decElapsed := 1 } : State).decElapsed + 1 < cfg3.deadlineTicks ∧
      cfg3.deadlineTicks ≤ ({ started with decElapsed := 2 } : State).decElapsed + 1 ∧
      cfg3.deadlineTicks ≤ ({ started with decElapsed := 9 } : State).decElapsed + 1 := by decide

/-- Two ticks of three, then three, with no input. -/
theorem witness_DeadlineBoundsCall :
    (∀ i ∈ [Instr.decTick, .decTick], i ≠ .decStart ∧ i.wireBytes cfg3 = none) ∧
      [Instr.decTick, .decTick].count .decTick < max cfg3.deadlineTicks 1 ∧
      max cfg3.deadlineTicks 1 ≤ [Instr.decTick, .decTick, .decTick].count .decTick ∧
      (next? (execAll [.decStart, .decTick, .decTick, .decTick] at0)).isSome := by decide

/-- The empty payload, and one chunk split inside the frame. -/
theorem witness_BuiltFrameRoundTrip :
    started.cfg.distinct ∧ started.decPhase = .seekDelim ∧ started.cfg.fend ∉ started.decBuf ∧
      (low7 0x80 = 0 ∧ ([] : Bytes).length ≤ 255) ∧
      [[0xC0], [0x07, 0x00, 0xD0]].flatten = build started.cfg 0x07 0x80 [] := by decide

/-- The longest payload the length field can state. -/
theorem witness_longest_payload : (List.replicate 255 (0x00 : Byte)).length ≤ 255 := by
  rw [List.length_replicate]

/-- A literal checksum byte corrupted to `FEND`, and the leading delimiter corrupted. -/
theorem witness_CorruptedByteResynchronises :
    let w := build cfgId 0x07 0 [0x05]
    cfgId.distinct ∧ TablePermutation cfgId ∧ cfgId.fend ∉ ([] : Bytes) ∧
      (4 < w.length ∧ w[4]? ≠ some 0xC0 ∧ 1 ≤ 4 ∧ w[4]? ≠ some cfgId.fesc ∧ w[4 - 1]? ≠ some cfgId.fesc ∧
        (0xC0 : Byte) ≠ cfgId.fesc ∧ 4 ≠ (stuff cfgId [cfgId.fend, 0x07 &&& 0x7F]).length) ∧
      (0 < w.length ∧ w[0]? ≠ some 0x00) := by
  refine ⟨by decide, witness_ChangedByteChangesChecksum.1, by decide, ?_, ?_⟩ <;> decide

/-- Of SeekInputDiscardable, TokensOutsideFrame, UnaddressedFrameDecodes and AddressedFrameMisread. -/
theorem witness_seek :
    let s := inPhase .seekDelim [0xDB, 0x11]
    s.cfg.distinct ∧ s.decPhase = .seekDelim ∧ s.cfg.fend ∉ s.decBuf ∧ s.decBuf ≠ [] := by decide

/-- A frame that completes a result, a tick that times out, and an inactive phase. -/
theorem witness_ResultKeptUntilStart :
    decoderAfter [.decFeed [0xC0, 0x07, 0x00, 0xD0]] started = some (.doneOk, .ok, [], [], []) ∧
      decoderAfter [.decTick] { started with decElapsed := 2 } = some (.doneTimeout, .timeout, [], [], []) ∧
      at0.decPhase.active = false := ⟨by decide, by decide, rfl⟩

theorem witness_InputArrivesInWireForm :
    Instr.wireBytes cfg3 (.wEscBad 0x41) = some [0xDB, 0x41] ∧
      Instr.wireBytes cfg3 (.fUnaddr 0x07 [0xC0]) = some (0xC0 :: stuffTail cfg3 (0x07 :: 0x01 :: 0xC0 ::
        [crc8 cfg3 [0xC0, 0x07, 0x01, 0xC0]])) := ⟨rfl, rfl⟩

/-- Each phase of a frame, the data phase one byte short; the three instructions that yield a byte. -/
theorem witness_TokensInsideFrame :
    let s := { inPhase .data [] with decLen := 1 }
    s.cfg.distinct ∧ s.decBuf = [] ∧ s.decPayload.length < s.decLen.toNat ∧ s.decPhase.inFrame = true ∧
      yields s.cfg .wEscFend = some 0xC0 ∧ yields s.cfg .wEscFesc = some 0xDB ∧
      yields s.cfg (.wLit 0xC0) = some 0xC0 ∧ (0xC0 : Byte) ≠ s.cfg.tfend ∧ (0xC0 : Byte) ≠ s.cfg.tfesc := by
  decide

theorem witness_TokensOutsideFrame :
    Instr.format .wEscPart = .token ∧ Instr.wireBytes cfg3 .wEscPart = some [0xDB] ∧ cfg3.fend ∉ [0xDB] := by decide

theorem witness_SplitEscapeJoins :
    (inPhase .cmd [0xDB]).cfg.distinct ∧ (inPhase .cmd [0xDB]).decPhase = .cmd ∧
      (inPhase .cmd [0xDB]).decBuf = [cfg3.fesc] := by decide

theorem witness_UnaddressedFrameDecodes_long :
    256 ≤ (List.replicate 256 (0x11 : Byte)).length ∧ started.resPayload = [] := by
  refine ⟨?_, rfl⟩
  rw [List.length_replicate]

/-- A body no longer than the command says, and one with a byte past it. -/
theorem witness_AddressedFrameMisread :
    let body : Bytes := lenByte [] :: [] ++ [crc8 cfg3 ([cfg3.fend, 0x80 ||| byteOf7 1, byteOf7 2, lenByte []] ++ [])]
    body.length ≤ (2 : BitVec 7).toNat ∧ body[(0 : BitVec 7).toNat]? = some 0x00 := by decide

/-- Of InvariantKeptByStep, BoundsKeptByStep and FlagsAgreeWithResult: a state in the middle of a frame. -/
theorem witness_Inv : Inv { inPhase .data [0xDB] with decLen := 1 } :=
  ⟨by decide, by decide, by decide, by decide, by decide, by decide, by decide⟩

theorem witness_Bounds : Bounds { inPhase .data [0xDB] with decLen := 1 } :=
  ⟨by decide, by decide, by decide, by decide, fun _ _ h => (List.not_mem_nil h).elim,
    fun _ _ h => (List.not_mem_nil h).elim, fun _ _ h => (List.not_mem_nil h).elim⟩

theorem witness_step_next :
    ({ inPhase .data [0xDB] with decLen := 1, pending := [.encoded ⟨.token, [0xC0]⟩] } : State).cfg.wf ∧
      (next? (step { inPhase .data [0xDB] with decLen := 1, pending := [.encoded ⟨.token, [0xC0]⟩] })).isSome :=
  ⟨cfg3_wf, by decide⟩

/-- The second clause of CrcUnitIndependent. -/
theorem witness_CrcUnitIndependent :
    Instr.decStart ≠ .crcInit ∧ (∀ d, Instr.decStart ≠ .crcUpdate d) ∧ (next? (exec .decStart at0)).isSome :=
  ⟨by decide, fun _ => by simp, by decide⟩

theorem witness_StopsOnlyWhereStated :
    Instr.stops at0 .decRead = false ∧ Instr.stops at0 (.crcUpdate 0) = true := by decide

theorem witness_PureOperationsRepeat :
    exec (.build 0x07 0 []) at0 = .next { at0 with out := .wire [0xC0, 0x07, 0x00, 0xD0] } := rfl

theorem witness_ExecutionAppliesOperations :
    at0.cfg.wf ∧ at0.pending = [] ∧ ∀ m i, (fun _ => some .decTick : Schedule) m = some i → i.wf at0.cfg = true :=
  ⟨cfg3_wf, rfl, by rintro m i ⟨⟩; rfl⟩

/-- A host that only ticks never stops the block: what holds after any number of turns. -/
theorem ticking_after (n : Nat) : ∃ t, after (fun _ => some .decTick) started n = .next t ∧ t.cfg = cfg3 ∧
    t.pending = [] := by
  induction n with
  | zero => exact ⟨started, rfl, rfl, rfl⟩
  | succ n ih =>
    obtain ⟨t, ht, hc, hp⟩ := ih
    refine ⟨(tick t).drive .nothing, ?_, ?_⟩
    · rw [after_succ ht, turn_some (hc ▸ cfg3_wf) hp rfl]
      rfl
    · obtain ⟨-, h⟩ | ⟨-, -, h⟩ | ⟨-, -, h⟩ := tick_cases t <;> simp [h, hc, hp]

/-- The first clause: a host that only ticks. -/
theorem witness_FairCallsEnd :
    started.cfg.wf ∧ started.pending = [] ∧ NeverStops (fun _ => some .decTick) started ∧
      WeaklyFair (fun _ => some .decTick) started ∧
      ∀ m, 0 ≤ m → (fun _ => some .decTick : Schedule) m ≠ some .decStart :=
  ⟨cfg3_wf, rfl, fun n => (ticking_after n).imp fun _ h => h.1, fun n _ => ⟨n, Nat.le_refl n, rfl⟩,
    fun _ _ h => by cases h⟩

theorem idle_after (n : Nat) : after (fun _ => none) started n = .next started := by
  induction n with
  | zero => rfl
  | succ n ih => rw [after_succ ih]; rfl

/-- The second clause: a host that issues nothing. -/
theorem witness_FairCallsEnd_without :
    started.cfg.wf ∧ started.pending = [] ∧ NeverStops (fun _ => none) started ∧ started.decPhase = .seekDelim ∧
      ∀ m i, (fun _ => none : Schedule) m = some i → i ≠ .decTick ∧ i.wireBytes started.cfg = none :=
  ⟨cfg3_wf, rfl, fun n => ⟨started, idle_after n⟩, rfl, fun _ _ h => by cases h⟩

end Sys2Proof.Tests
end

section
/-! PROOFS. The family 00_scope.md: executions (R17), the parameters at reset (R8 to R10), and the refusal of an
ill-formed configuration (R218). -/

namespace Sys2Proof.Machine

variable {ops : Schedule} {s t : State}

/-! What executing instructions leaves unchanged, and how a sequence of them is executed. -/

/-- No instruction writes the configuration (R34) or the queue. -/
theorem exec_frame {i : Instr} (h : exec i s = .next t) : t.cfg = s.cfg ∧ t.pending = s.pending := by
  obtain ⟨w, -, rfl⟩ | ⟨-, rfl⟩ | ⟨-, rfl⟩ | ⟨-, rfl⟩ | ⟨_, _, -, -, rfl⟩ | ⟨_, -, rfl⟩ | ⟨_, -, rfl⟩ |
    ⟨_, _, _, -, -, rfl⟩ | ⟨-, rfl⟩ := exec_next h
  case inl =>
    obtain ⟨hcfg, -, -, -, hpending⟩ := feed_frame s w
    exact ⟨hcfg, hpending⟩
  case inr.inr.inl => obtain ⟨-, ht⟩ | ⟨-, -, ht⟩ | ⟨-, -, ht⟩ := tick_cases s <;> simp [ht]
  all_goals exact ⟨rfl, rfl⟩

theorem execAll_cons_next {i : Instr} (h : exec i s = .next t) (is : List Instr) :
    execAll (i :: is) s = execAll is t := by
  simp only [execAll, h]

/-- A first instruction that stops ends the sequence (R13; log entry 26). -/
theorem execAll_cons_stop {i : Instr} (h : ∀ t, exec i s ≠ .next t) (is : List Instr) :
    execAll (i :: is) s = exec i s := by
  cases hi : exec i s with
  | next t => exact absurd hi (h t)
  | fault f => simp only [execAll, hi]
  | refused r => simp only [execAll, hi]

theorem execAll_singleton (i : Instr) (s : State) : execAll [i] s = exec i s := by
  by_cases h : ∃ t, exec i s = .next t
  · obtain ⟨t, ht⟩ := h
    exact (execAll_cons_next ht []).trans ht.symm
  · exact execAll_cons_stop (not_exists.1 h) []

/-- A sequence that answers a next state executed its first instruction and then the rest. -/
theorem execAll_cons_eq_next {i : Instr} {is : List Instr} (h : execAll (i :: is) s = .next t) :
    ∃ u, exec i s = .next u ∧ execAll is u = .next t := by
  by_cases hi : ∃ u, exec i s = .next u
  · obtain ⟨u, hu⟩ := hi
    exact ⟨u, hu, execAll_cons_next hu is ▸ h⟩
  · exact absurd (execAll_cons_stop (not_exists.1 hi) is ▸ h) (not_exists.1 hi t)

/-- No sequence of instructions writes the configuration (R34) or the queue. -/
theorem execAll_frame {is : List Instr} (h : execAll is s = .next t) :
    t.cfg = s.cfg ∧ t.pending = s.pending := by
  induction is generalizing s with
  | nil => cases h; exact ⟨rfl, rfl⟩
  | cons i is ih =>
    obtain ⟨u, hi, hrest⟩ := execAll_cons_eq_next h
    obtain ⟨hcfg, hpending⟩ := exec_frame hi
    obtain ⟨hcfg', hpending'⟩ := ih hrest
    exact ⟨hcfg'.trans hcfg, hpending'.trans hpending⟩

/-! A sequence in two parts: the second starts where the first ends, and is not reached past a stop. -/

theorem execAll_append_next {is : List Instr} (h : execAll is s = .next t) (js : List Instr) :
    execAll (is ++ js) s = execAll js t := by
  induction is generalizing s with
  | nil => cases h; rfl
  | cons i is ih =>
    obtain ⟨u, hi, hrest⟩ := execAll_cons_eq_next h
    rw [List.cons_append, execAll_cons_next hi, ih hrest]

theorem execAll_append_stop {is : List Instr} (h : ∀ t, execAll is s ≠ .next t) (js : List Instr) :
    execAll (is ++ js) s = execAll is s := by
  induction is generalizing s with
  | nil => exact absurd rfl (h s)
  | cons i is ih =>
    by_cases hi : ∃ u, exec i s = .next u
    · obtain ⟨u, hu⟩ := hi
      simp only [execAll_cons_next hu] at h
      rw [List.cons_append, execAll_cons_next hu, execAll_cons_next hu, ih h]
    · rw [List.cons_append, execAll_cons_stop (not_exists.1 hi), execAll_cons_stop (not_exists.1 hi)]

/-! Turns. -/

/-- With nothing issued and nothing waiting the block waits (R213). -/
theorem turn_none (hc : s.cfg.wf) (hp : s.pending = []) : turn none s = .next s := by
  simp only [turn, step, fetch, configRefusal_of_wf hc, hp]

/-- With nothing else waiting, a turn executes what is issued in it: one instruction, or none. -/
theorem turn_eq_execAll {op : Option Instr} (hc : s.cfg.wf) (hp : s.pending = [])
    (hi : ∀ i, op = some i → i.wf s.cfg = true) : turn op s = execAll op.toList s := by
  cases op with
  | none => exact turn_none hc hp
  | some i => exact (turn_some hc hp (hi i rfl)).trans (execAll_singleton i s).symm

/-- What stops an execution is what it answers one turn later too (R13; log entry 26). -/
theorem after_succ_stop {n : Nat} (h : ∀ t, after ops s n ≠ .next t) : after ops s (n + 1) = after ops s n := by
  cases hn : after ops s n with
  | next t => exact absurd hn (h t)
  | fault f => simp only [after, hn]
  | refused r => simp only [after, hn]

/-- The operations issued in `n + 1` turns are those of the first `n`, then that of the last. -/
theorem issued_succ (ops : Schedule) (n : Nat) :
    (List.range (n + 1)).filterMap ops = (List.range n).filterMap ops ++ (ops n).toList := by
  rw [List.range_succ, List.filterMap_append]
  cases h : ops n <;> simp [h]

/-- Settles O59, by induction on the number of turns: the queue is empty again after each turn, since no instruction
writes it, so the next turn executes just what is issued in it. -/
theorem executionAppliesOperations : Obligations.ExecutionAppliesOperations := by
  intro ops s n hc hp hwf
  induction n with
  | zero => rfl
  | succ n ih =>
    rw [issued_succ]
    by_cases h : ∃ t, execAll ((List.range n).filterMap ops) s = .next t
    · obtain ⟨t, ht⟩ := h
      obtain ⟨hcfg, hpending⟩ := execAll_frame ht
      rw [execAll_append_next ht, after_succ (ih.trans ht)]
      exact turn_eq_execAll (hcfg ▸ hc) (hpending.trans hp) (hcfg ▸ hwf n)
    · have hstop := not_exists.1 h
      rw [execAll_append_stop hstop, after_succ_stop (ih ▸ hstop), ih]

/-! The configuration. -/

/-- The configuration at reset is well formed (R9, R10); its `ENC_MAX_PAYLOAD` is unbounded, so R148 asks nothing. -/
theorem defaultConfig_wf : defaultConfig.wf :=
  ⟨by decide, crc8Table_length, by simp [Config.encMaxOk, defaultConfig]⟩

/-- Settles O2: the values are those written out in `defaultConfig`. -/
theorem defaultParameters : Obligations.DefaultParameters :=
  ⟨rfl, rfl, rfl, rfl, rfl, rfl, defaultConfig_wf⟩

/-- A step is refused for its configuration before anything is taken from the queue (R218). -/
theorem step_of_configRefusal {r : Refusal} (h : configRefusal s.cfg = some r) : step s = .refused r := by
  simp only [step, fetch, h]

theorem configRefusal_of_not_distinct {c : Config} (h : ¬ c.distinct) :
    configRefusal c = some .reservedBytesNotDistinct := by
  rw [configRefusal, if_neg h]

theorem configRefusal_of_not_tableSized {c : Config} (hd : c.distinct) (h : ¬ c.tableSized) :
    configRefusal c = some .crcTableNot256 := by
  rw [configRefusal, if_pos hd, if_neg fun hr => h ((hasRows_iff 16 _).1 hr)]

theorem configRefusal_of_not_encMaxOk {c : Config} (hd : c.distinct) (ht : c.tableSized) (h : ¬ c.encMaxOk) :
    configRefusal c = some .encMaxPayloadUnder255 := by
  rw [configRefusal, if_pos hd, if_pos ((hasRows_iff 16 _).2 ht), if_neg h]

/-- Settles O4, one clause for each way `configRefusal` answers. -/
theorem illFormedConfigurationRefused : Obligations.IllFormedConfigurationRefused := by
  intro s
  refine ⟨fun h => ?_, fun hd h => ?_, fun m hd ht hm hlt => ?_⟩
  · exact step_of_configRefusal (configRefusal_of_not_distinct h)
  · exact step_of_configRefusal (configRefusal_of_not_tableSized hd h)
  · have hbound : ¬ s.cfg.encMaxOk := fun hok => absurd (hok m hm) (Nat.not_le.2 hlt)
    exact step_of_configRefusal (configRefusal_of_not_encMaxOk hd ht hbound)

end Sys2Proof.Machine
end

section
/-! PROOFS. The family 10_state.md: the access table (R34, R36), the append-only events (R32), the derived flags (R33),
and the invariants and ranges that every step keeps (R38, R29, R31, R205). -/

namespace Sys2Proof.Machine

variable {s t : State}

/-! The registers that only some instructions write. -/

/-- Settles O5: the configuration is in the frame of every instruction. -/
theorem configurationNeverWritten : Obligations.ConfigurationNeverWritten :=
  fun _ _ _ h => (exec_frame h).1

/-- What an instruction can do, by the unit whose registers it writes: input, the decoder's other two operations, the
CRC operations, and those that drive the output port only. -/
theorem exec_next_units {i : Instr} (h : exec i s = .next t) :
    (∃ w, i.wireBytes s.cfg = some w ∧ t = (feed s w).drive .nothing) ∨
    (i = .decStart ∧ t = s.start.drive .nothing) ∨
    (i = .decTick ∧ t = (tick s).drive .nothing) ∨
    ((i = .crcInit ∨ ∃ d, i = .crcUpdate d) ∧ ∃ a o, t = (s.setCrcAcc a).drive o) ∨
    (∃ o, t = s.drive o) := by
  obtain hinput | hstart | htick | ⟨hi, ht⟩ | ⟨d, _, hi, -, ht⟩ | ⟨_, -, ht⟩ | ⟨_, -, ht⟩ | ⟨_, _, _, -, -, ht⟩ |
    ⟨-, ht⟩ := exec_next h
  · exact .inl hinput
  · exact .inr (.inl hstart)
  · exact .inr (.inr (.inl htick))
  · exact .inr (.inr (.inr (.inl ⟨.inl hi, _, _, ht⟩)))
  · exact .inr (.inr (.inr (.inl ⟨.inr ⟨d, hi⟩, _, _, ht⟩)))
  all_goals exact .inr (.inr (.inr (.inr ⟨_, ht⟩)))

/-- The registers a tick does not write (R36). -/
theorem tick_frame (s : State) :
    (tick s).cfg = s.cfg ∧ (tick s).crcAcc = s.crcAcc ∧ (tick s).decCmd = s.decCmd ∧ (tick s).decLen = s.decLen ∧
      (tick s).decPayload = s.decPayload ∧ (tick s).evLog = s.evLog ∧ (tick s).pending = s.pending := by
  obtain ⟨-, ht⟩ | ⟨-, -, ht⟩ | ⟨-, -, ht⟩ := tick_cases s <;> simp [ht]

/-- Settles O53, one case for each unit: what the unit may write is granted by the table, the rest is its frame. -/
theorem accessTable : Obligations.AccessTable := by
  intro i s t h
  obtain ⟨w, hw, rfl⟩ | ⟨hi, rfl⟩ | ⟨hi, rfl⟩ | ⟨hi, a, o, rfl⟩ | ⟨o, rfl⟩ := exec_next_units h
  · obtain ⟨hcfg, hacc, helapsed, -, hpending⟩ := feed_frame s w
    simp [hw, hcfg, hacc, helapsed, hpending]
  · simp [hi]
  · obtain ⟨hcfg, hacc, hcmd, hlen, hpayload, hlog, hpending⟩ := tick_frame s
    simp [hi, hcfg, hacc, hcmd, hlen, hpayload, hlog, hpending]
  · simp [hi]
  · simp

/-! The events: a transition appends at most one, and that one is in the ranges of R205. -/

/-- The ranges of what one event holds (R205), in the words of `Bounds`. -/
def EventInRange (cfg : Config) : Event → Prop
  | .crcMismatch received expected => received ≠ expected
  | .badEscape phase follower =>
    (2 ≤ phase.toNat ∧ phase.toNat ≤ 5) ∧ follower ≠ cfg.tfend ∧ follower ≠ cfg.tfesc

/-- The phases `CMD` to `CRC` have the codes 2 to 5 (R23, R73). -/
theorem Phase.code_of_inFrame {p : Phase} (h : p.inFrame = true) : 2 ≤ p.code.toNat ∧ p.code.toNat ≤ 5 := by
  revert h
  cases p <;> decide

/-- What a transition writes to the event output: nothing, or one event in its range (R168, R171, R205). -/
theorem decStep_evLog (h : decStep s = some t) :
    t.evLog = s.evLog ∨ ∃ e, t.evLog = s.evLog ++ [e] ∧ EventInRange s.cfg e := by
  obtain ⟨_, _, -, -, -, rfl⟩ | ⟨hframe, -, x, r, hbuf, htfend, htfesc, rfl⟩ | ⟨-, -, rfl⟩ |
    ⟨b, n, -, ⟨-, rfl⟩ | ⟨-, rfl⟩ | ⟨-, -, rfl⟩ | ⟨-, -, rfl⟩ | ⟨-, hne, rfl⟩⟩ := decStep_eq_some h
  · exact .inl rfl
  · exact .inr ⟨.badEscape s.decPhase.code x, by simp [hbuf], Phase.code_of_inFrame hframe, htfend, htfesc⟩
  · exact .inl rfl
  · exact .inl rfl
  · exact .inl rfl
  · exact .inl rfl
  · exact .inl rfl
  · exact .inr ⟨.crcMismatch b s.expectedCrc, rfl, hne⟩

/-- `run` only appends to the event output (R32). -/
theorem evLog_prefix_run (s : State) : s.evLog <+: (run s).evLog := by
  refine run_induct (P := fun s r => s.evLog <+: r.evLog) (fun _ _ => List.prefix_rfl) ?_ s
  intro s t r h ih
  obtain hlog | ⟨e, hlog, -⟩ := decStep_evLog h
  · exact hlog ▸ ih
  · exact (hlog ▸ List.prefix_append s.evLog [e]).trans ih

theorem evLog_prefix_feed (s : State) (c : Bytes) : s.evLog <+: (feed s c).evLog := by
  cases h : s.decPhase.active with
  | false => rw [feed_of_inactive h]
  | true => rw [feed_of_active h]; exact evLog_prefix_run (s.appendBuf c)

/-- Settles O55: only input writes the event output, and its transitions append. -/
theorem eventLogAppendOnly : Obligations.EventLogAppendOnly := by
  intro i s t h
  obtain ⟨w, -, rfl⟩ | ⟨-, rfl⟩ | ⟨-, rfl⟩ | ⟨-, a, o, rfl⟩ | ⟨o, rfl⟩ := exec_next_units h
  · exact evLog_prefix_feed s w
  · exact List.prefix_rfl
  · obtain ⟨-, -, -, -, -, hlog, -⟩ := tick_frame s
    simp [hlog]
  · exact List.prefix_rfl
  · exact List.prefix_rfl

/-! The invariants of R38. Clauses (c) and (d) fail between two transitions of one `run`, so they are no invariant of a
transition: what is one is `TransitionInv`, and the rest says that no transition is enabled (`inv_iff`). -/

/-- The clauses (a), (b) and (f) of R38. -/
structure TransitionInv (s : State) : Prop where
  payloadFits : s.decPayload.length ≤ s.decLen.toNat
  inactiveBuf : s.decPhase.active = false → s.decBuf = []
  okIff : s.resKind = .ok ↔ s.decPhase = .doneOk
  timeoutIff : s.resKind = .timeout ↔ s.decPhase = .doneTimeout

/-- The three kinds of rows of the table of R160 (R23, R73). -/
theorem Phase.inactive_or_seekDelim_or_inFrame (p : Phase) :
    p.active = false ∨ p = .seekDelim ∨ p.inFrame = true := by
  cases p <;> simp

/-- R38 is its clauses (a), (b) and (f) in a state where `run` has nothing to do. -/
theorem inv_iff : Inv s ↔ TransitionInv s ∧ decStep s = none := by
  rw [decStep_eq_none]
  constructor
  · rintro ⟨hfits, hinactive, hseek, hframe, hdata, hok, htimeout⟩
    refine ⟨⟨hfits, hinactive, hok, htimeout⟩, ?_⟩
    obtain hp | hp | hp := s.decPhase.inactive_or_seekDelim_or_inFrame
    · exact .inl hp
    · exact .inr (.inl ⟨hp, hseek hp⟩)
    · exact .inr (.inr ⟨hp, fun hd => (hdata hd).ne, hframe hp⟩)
  · rintro ⟨⟨hfits, hinactive, hok, htimeout⟩, hnone⟩
    refine ⟨hfits, hinactive, fun hp => ?_, fun hp => ?_, fun hp => ?_, hok, htimeout⟩
    · simpa [hp] using hnone
    · obtain h | ⟨h, -⟩ | ⟨-, -, h⟩ := hnone
      · exact .inl (hinactive h)
      · simp [h] at hp
      · exact h
    · obtain h | ⟨h, -⟩ | ⟨-, hne, -⟩ := hnone
      · simp [hp] at h
      · simp [hp] at h
      · exact Nat.lt_of_le_of_ne hfits (hne hp)

/-- While a decode call is active there is no result (R38 (f)). -/
theorem TransitionInv.resKind_of_active (h : TransitionInv s) (ha : s.decPhase.active = true) : s.resKind = .none := by
  obtain ⟨-, -, hok, htimeout⟩ := h
  cases hk : s.resKind with
  | none => rfl
  | ok => simp [hok.1 hk] at ha
  | timeout => simp [htimeout.1 hk] at ha

/-- In an active phase with no result, clause (a) is all that is left of the three. -/
theorem transitionInv_of_active (hfits : s.decPayload.length ≤ s.decLen.toNat) (ha : s.decPhase.active = true)
    (hk : s.resKind = .none) : TransitionInv s := by
  refine ⟨hfits, fun h => ?_, iff_of_false ?_ fun hp => ?_, iff_of_false ?_ fun hp => ?_⟩
  · simp [h] at ha
  · simp [hk]
  · simp [hp] at ha
  · simp [hk]
  · simp [hp] at ha

/-- What a transition does to the phase and the result: it stays active and leaves the result, or it accepts (R169). -/
theorem decStep_result (h : decStep s = some t) :
    (t.decPhase.active = true ∧ t.resKind = s.resKind ∧ t.resPayload = s.resPayload) ∨
    (t.decPhase = .doneOk ∧ t.decBuf = [] ∧ t.resKind = .ok ∧ t.resPayload = s.decPayload) := by
  obtain ⟨_, _, -, -, -, rfl⟩ | ⟨-, -, _, _, -, -, -, rfl⟩ | ⟨-, -, rfl⟩ |
    ⟨b, n, -, ⟨-, rfl⟩ | ⟨-, rfl⟩ | ⟨hp, -, rfl⟩ | ⟨-, -, rfl⟩ | ⟨-, -, rfl⟩⟩ := decStep_eq_some h
  · exact .inl ⟨rfl, rfl, rfl⟩
  · exact .inl ⟨rfl, rfl, rfl⟩
  · exact .inl ⟨rfl, rfl, rfl⟩
  · exact .inl ⟨rfl, rfl, rfl⟩
  · exact .inl ⟨rfl, rfl, rfl⟩
  · exact .inl ⟨by simp [takeData, hp], rfl, rfl⟩
  · exact .inr ⟨rfl, rfl, rfl, rfl⟩
  · exact .inl ⟨rfl, rfl, rfl⟩

/-- No transition makes a payload longer than its length (R38 (a)): a byte is taken only where one is missing. -/
theorem decStep_payloadFits (h : decStep s = some t) (hs : s.decPayload.length ≤ s.decLen.toNat) :
    t.decPayload.length ≤ t.decLen.toNat := by
  obtain ⟨_, _, -, -, -, rfl⟩ | ⟨-, -, _, _, -, -, -, rfl⟩ | ⟨-, -, rfl⟩ |
    ⟨b, n, -, ⟨-, rfl⟩ | ⟨-, rfl⟩ | ⟨-, hne, rfl⟩ | ⟨-, -, rfl⟩ | ⟨-, -, rfl⟩⟩ := decStep_eq_some h
  · exact hs
  · exact Nat.zero_le _
  · exact hs
  · exact hs
  · exact Nat.zero_le _
  · have hlt := Nat.lt_of_le_of_ne hs hne
    simpa [takeData] using hlt
  · exact hs
  · exact Nat.zero_le _

theorem TransitionInv.decStep (hs : TransitionInv s) (h : decStep s = some t) : TransitionInv t := by
  have hfits := decStep_payloadFits h hs.payloadFits
  obtain ⟨ha, hkind, -⟩ | ⟨hp, hbuf, hkind, -⟩ := decStep_result h
  · exact transitionInv_of_active hfits ha (hkind.trans (hs.resKind_of_active (active_of_decStep h)))
  · exact ⟨hfits, fun _ => hbuf, by simp [hkind, hp], by simp [hkind, hp]⟩

theorem TransitionInv.appendBuf (hs : TransitionInv s) (ha : s.decPhase.active = true) (c : Bytes) :
    TransitionInv (s.appendBuf c) :=
  transitionInv_of_active hs.payloadFits ha (hs.resKind_of_active ha)

/-- After `run` the state meets all of R38, whatever was buffered before. -/
theorem TransitionInv.run (hs : TransitionInv s) : Inv (run s) :=
  inv_iff.2 ⟨run_preserves (fun _ _ => TransitionInv.decStep) hs, decStep_run s⟩

theorem Inv.feed (hs : Inv s) (c : Bytes) : Inv (feed s c) := by
  cases h : s.decPhase.active with
  | false => rwa [feed_of_inactive h]
  | true => rw [feed_of_active h]; exact ((inv_iff.1 hs).1.appendBuf h c).run

/-- R38 says nothing of the CRC accumulator, the elapsed count, the outputs and the queue. -/
theorem Inv.withOthers (hs : Inv s) (a : Option Byte) (e : Nat) (o : Output) (q : List Issue) :
    Inv (s.withOthers a e o q) := by
  obtain ⟨hfits, hinactive, hseek, hframe, hdata, hok, htimeout⟩ := hs
  exact ⟨hfits, hinactive, hseek, hframe, hdata, hok, htimeout⟩

theorem Inv.drive (hs : Inv s) (o : Output) : Inv (s.drive o) :=
  hs.withOthers s.crcAcc s.decElapsed o s.pending

theorem inv_start (s : State) : Inv s.start := by constructor <;> simp

theorem Inv.timeout (hs : Inv s) : Inv s.timeout := by
  constructor <;> simp [hs.payloadFits]

theorem Inv.tick (hs : Inv s) : Inv (tick s) := by
  have hcounted : Inv { s with decElapsed := s.decElapsed + 1 } :=
    hs.withOthers s.crcAcc (s.decElapsed + 1) s.out s.pending
  obtain ⟨-, ht⟩ | ⟨-, -, ht⟩ | ⟨-, -, ht⟩ := tick_cases s <;> rw [ht]
  · exact hs
  · exact hcounted
  · exact hcounted.timeout

theorem Inv.exec {i : Instr} (hs : Inv s) (h : exec i s = .next t) : Inv t := by
  obtain ⟨w, -, rfl⟩ | ⟨-, rfl⟩ | ⟨-, rfl⟩ | ⟨-, a, o, rfl⟩ | ⟨o, rfl⟩ := exec_next_units h
  · exact (hs.feed w).drive .nothing
  · exact (inv_start s).drive .nothing
  · exact hs.tick.drive .nothing
  · exact hs.withOthers (some a) s.decElapsed o s.pending
  · exact hs.drive o

/-- Settles O50: a step waits, or executes an instruction with only the queue changed before. -/
theorem invariantKeptByStep : Obligations.InvariantKeptByStep := by
  intro s t hs h
  obtain ⟨-, rfl⟩ | ⟨i, q, hexec⟩ := step_next h
  · exact hs
  · exact (hs.withOthers s.crcAcc s.decElapsed s.out q).exec hexec

/-- Settles O58: clause (f) ties the result to the phase, clause (d) the buffer to a lone `FESC`. -/
theorem flagsAgreeWithResult : Obligations.FlagsAgreeWithResult := by
  intro s hs
  refine ⟨?_, (inv_iff.1 hs).1.resKind_of_active, ?_⟩
  · have hdone : s.done = true ↔ s.resKind = .ok ∨ s.resKind = .timeout := by
      simp [State.done, hs.okIff, hs.timeoutIff]
    rw [hdone]
    cases s.resKind <;> simp
  · simp only [State.escPending, Bool.and_eq_true, beq_iff_eq]
    refine and_congr_right fun hframe => ?_
    obtain hbuf | hbuf := hs.frameBuf hframe <;> simp [hbuf]

/-! The ranges. -/

/-- The ranges with those of the events said event by event. -/
theorem bounds_iff :
    Bounds s ↔ s.decElapsed ≤ max s.cfg.deadlineTicks 1 ∧
      (s.decPhase.active = true → s.decElapsed < max s.cfg.deadlineTicks 1) ∧
      (s.resKind ≠ .ok → s.resPayload = []) ∧ s.resPayload.length ≤ 255 ∧
      ∀ e ∈ s.evLog, EventInRange s.cfg e := by
  constructor
  · rintro ⟨hle, hlt, hempty, hfits, hmismatch, hphase, hfollower⟩
    refine ⟨hle, hlt, hempty, hfits, ?_⟩
    rintro (⟨r, x⟩ | ⟨p, x⟩) he
    · exact hmismatch r x he
    · exact ⟨hphase p x he, hfollower p x he⟩
  · rintro ⟨hle, hlt, hempty, hfits, hevents⟩
    exact ⟨hle, hlt, hempty, hfits, fun _ _ => hevents _, fun _ _ he => (hevents _ he).1,
      fun _ _ he => (hevents _ he).2⟩

theorem Bounds.decStep (hb : Bounds s) (hs : TransitionInv s) (h : decStep s = some t) : Bounds t := by
  obtain ⟨hle, hlt, hempty, hfits, hevents⟩ := bounds_iff.1 hb
  obtain ⟨hcfg, -, helapsed, -, -⟩ := decStep_frame h
  have hresult : (t.resKind ≠ .ok → t.resPayload = []) ∧ t.resPayload.length ≤ 255 := by
    obtain ⟨-, hkind, hpayload⟩ | ⟨-, -, hkind, hpayload⟩ := decStep_result h
    · rw [hkind, hpayload]; exact ⟨hempty, hfits⟩
    · have hlen : s.decLen.toNat < 256 := s.decLen.isLt
      have hpay := hs.payloadFits
      rw [hpayload]
      exact ⟨fun hne => absurd hkind hne, by omega⟩
  have hlog : ∀ e ∈ t.evLog, EventInRange s.cfg e := by
    obtain hsame | ⟨e, happend, he⟩ := decStep_evLog h
    · rwa [hsame]
    · rw [happend]
      simpa [or_imp, forall_and] using ⟨hevents, he⟩
  rw [bounds_iff, hcfg, helapsed]
  exact ⟨hle, fun _ => hlt (active_of_decStep h), hresult.1, hresult.2, hlog⟩

theorem Bounds.run (hb : Bounds s) (hs : TransitionInv s) : Bounds (run s) :=
  (run_preserves (P := fun s => TransitionInv s ∧ Bounds s)
    (fun _ _ ⟨hs, hb⟩ h => ⟨hs.decStep h, hb.decStep hs h⟩) ⟨hs, hb⟩).2

/-- The ranges say nothing of the CRC accumulator, the unread input, the outputs and the queue. -/
theorem Bounds.withUnranged (hb : Bounds s) (a : Option Byte) (b : Bytes) (o : Output) (q : List Issue) :
    Bounds { s with crcAcc := a, decBuf := b, out := o, pending := q } := by
  obtain ⟨hle, hlt, hempty, hfits, hmismatch, hphase, hfollower⟩ := hb
  exact ⟨hle, hlt, hempty, hfits, hmismatch, hphase, hfollower⟩

theorem Bounds.drive (hb : Bounds s) (o : Output) : Bounds (s.drive o) :=
  hb.withUnranged s.crcAcc s.decBuf o s.pending

theorem Bounds.appendBuf (hb : Bounds s) (c : Bytes) : Bounds (s.appendBuf c) :=
  hb.withUnranged s.crcAcc (s.decBuf ++ c) s.out s.pending

theorem Bounds.feed (hb : Bounds s) (hs : Inv s) (c : Bytes) : Bounds (feed s c) := by
  cases h : s.decPhase.active with
  | false => rwa [feed_of_inactive h]
  | true => rw [feed_of_active h]; exact (hb.appendBuf c).run ((inv_iff.1 hs).1.appendBuf h c)

/-- `DEC_START` sets the elapsed count to 0, under every deadline, and clears the result. -/
theorem Bounds.start (hb : Bounds s) : Bounds s.start := by
  obtain ⟨-, -, -, -, hevents⟩ := bounds_iff.1 hb
  exact bounds_iff.2 ⟨Nat.zero_le _, fun _ => by simp, fun _ => rfl, Nat.zero_le _, hevents⟩

/-- A tick counts from under the deadline to at most the deadline, and reaching it ends the call (R173, R174). -/
theorem Bounds.tick (hb : Bounds s) : Bounds (tick s) := by
  obtain ⟨hle, hlt, hempty, hfits, hevents⟩ := bounds_iff.1 hb
  obtain ⟨-, ht⟩ | ⟨ha, hunder, ht⟩ | ⟨ha, -, ht⟩ := tick_cases s <;> rw [ht]
  · exact hb
  · have hnext : s.decElapsed + 1 < max s.cfg.deadlineTicks 1 := lt_max_of_lt_left hunder
    exact bounds_iff.2 ⟨hnext.le, fun _ => hnext, hempty, hfits, hevents⟩
  · exact bounds_iff.2 ⟨hlt ha, fun h => by simp at h, fun _ => rfl, Nat.zero_le _, hevents⟩

theorem Bounds.exec {i : Instr} (hb : Bounds s) (hs : Inv s) (h : exec i s = .next t) : Bounds t := by
  obtain ⟨w, -, rfl⟩ | ⟨-, rfl⟩ | ⟨-, rfl⟩ | ⟨-, a, o, rfl⟩ | ⟨o, rfl⟩ := exec_next_units h
  · exact (hb.feed hs w).drive .nothing
  · exact hb.start.drive .nothing
  · exact hb.tick.drive .nothing
  · exact hb.withUnranged (some a) s.decBuf o s.pending
  · exact hb.drive o

/-- Settles O51: of R38 it needs clause (a), which bounds the payload that is accepted by a length byte, and the others to
keep that clause along `run`. -/
theorem boundsKeptByStep : Obligations.BoundsKeptByStep := by
  intro s t hs hb h
  obtain ⟨-, rfl⟩ | ⟨i, q, hexec⟩ := step_next h
  · exact hb
  · exact (hb.withUnranged s.crcAcc s.decBuf s.out q).exec
      (hs.withOthers s.crcAcc s.decElapsed s.out q) hexec

/-- Settles O52: at reset nothing is buffered, counted, held or reported, and the decoder is inactive. -/
theorem invariantsAtReset : Obligations.InvariantsAtReset := by
  have hinv : Inv State.reset := by constructor <;> simp [State.reset]
  have hevents : ∀ e ∈ State.reset.evLog, EventInRange State.reset.cfg e := fun _ he => (List.not_mem_nil he).elim
  exact ⟨hinv, bounds_iff.2 ⟨Nat.zero_le _, fun h => by simp [State.reset] at h, fun _ => rfl, Nat.zero_le _, hevents⟩⟩

end Sys2Proof.Machine
end

section
/-! PROOFS. The family 20_memory.md: what stands first in the queue is what a step executes, issued whole, in its own
encoding or in a stream of records (R60, R93), and the operations that write the output port only (R58). -/

namespace Sys2Proof.Machine

open Sys2Proof.Claims

variable {cfg : Config} {s t : State}

/-! Each encoding is read back as what it encodes: records, tokens, frames. -/

/-- A sequence operand that a record holds is read off the front of what follows (R93). -/
theorem seqOperand_seqRecord {x : Bytes} (h : seqFits x = true) (mk : Bytes → Instr) (rest : Bytes) :
    seqOperand mk (seqRecord x ++ rest) = .ok (mk x, rest) := by
  simp only [seqOperand, readSeq_seqRecord (of_decide_eq_true h) rest]

/-- A record is read off the front of any stream (R90, R93). -/
theorem decodeOp_encode_append {i : Instr} (hop : i.format = .op) (hfits : i.fits = true) (rest : Bytes) :
    decodeOp (encode cfg i ++ rest) = .ok (i, rest) := by
  cases i with
  | crcInit => rfl
  | crcUpdate d => rfl
  | decStart => rfl
  | decTick => rfl
  | decRead => rfl
  | stuff x => exact seqOperand_seqRecord hfits .stuff rest
  | unstuff1 buf => exact seqOperand_seqRecord hfits .unstuff1 rest
  | build cmd addr p => exact seqOperand_seqRecord hfits (.build cmd addr) rest
  | decFeed c => exact seqOperand_seqRecord hfits .decFeed rest
  | wFend | wEscFend | wEscFesc | wEscBad | wEscPart | wLit | fUnaddr | fAddr => cases hop

/-- A token is read back where its bytes have its own reading (R73, R74). -/
theorem decodeToken_encode {i : Instr} {inFrame : Bool} (hd : cfg.distinct) (htoken : i.format = .token)
    (hwf : i.wf cfg = true) (hback : readsBack cfg inFrame i) :
    decodeToken cfg inFrame (encode cfg i) = .ok i := by
  obtain ⟨hfend_fesc, -, -, -, -, htfend_tfesc⟩ := hd
  cases i with
  | wFend => simp [encode, decodeToken, hfend_fesc, show inFrame = false from hback]
  | wEscFend => simp [encode, decodeToken]
  | wEscFesc => simp [encode, decodeToken, htfend_tfesc.symm]
  | wEscBad x =>
    obtain ⟨htfend, htfesc⟩ : x ≠ cfg.tfend ∧ x ≠ cfg.tfesc := by simpa [Instr.wf] using hwf
    simp [encode, decodeToken, htfend, htfesc]
  | wEscPart => simp [encode, decodeToken]
  | wLit b =>
    have hfesc : b ≠ cfg.fesc := by simpa [Instr.wf] using hwf
    have hfend : ¬ (b = cfg.fend ∧ inFrame = false) := fun ⟨hb, hout⟩ => by simp [hback hb] at hout
    rw [encode, decodeToken, if_neg hfesc, if_neg hfend]
  | crcInit | crcUpdate | stuff | unstuff1 | build | decStart | decFeed | decTick | decRead | fUnaddr | fAddr =>
    cases htoken

/-- A frame's end is read back from its length byte, payload and checksum (R75, R76, R79). -/
theorem frameEnd_withCrc (head p : Bytes) :
    frameEnd cfg head (lenByte p :: (p ++ [crc8 cfg (head ++ lenByte p :: p)])) = some p := by
  simp [frameEnd]

/-! A 7-bit field stands in a byte whose bit 7 tells an address byte from a command byte (R75, R76, R77). -/

theorem msb_byteOf7 (v : BitVec 7) : (byteOf7 v).msb = false := by
  simp [byteOf7, BitVec.msb_eq_getLsbD_last]

theorem low7_byteOf7 (v : BitVec 7) : low7 (byteOf7 v) = v := by
  simp [low7, byteOf7]

theorem msb_addrByte (v : Byte) : (addrByte v).msb = true := by
  rw [addrByte, BitVec.msb_or, show (0x80 : Byte).msb = true from rfl, Bool.true_or]

theorem low7_addrByte_byteOf7 (v : BitVec 7) : low7 (addrByte (byteOf7 v)) = v := by
  simp [low7, addrByte, byteOf7, BitVec.setWidth_or]

/-- A frame is read back, its format told by bit 7 of byte 1 (R75, R76, R77). -/
theorem decodeFrame_encode {i : Instr} (hframe : i.format = .frame) (hwf : i.wf cfg = true) :
    decodeFrame cfg (encode cfg i) = .ok i := by
  cases i with
  | fUnaddr c p =>
    have hend := frameEnd_withCrc (cfg := cfg) [cfg.fend, byteOf7 c] p
    simp only [encode, frameUnaddr, withCrc, List.cons_append, List.nil_append] at hend ⊢
    simp only [decodeFrame, msb_byteOf7, hend, low7_byteOf7, if_true]
  | fAddr a c p =>
    have haddr : a ≠ 0#7 := by simpa [Instr.wf] using hwf
    have hend := frameEnd_withCrc (cfg := cfg) [cfg.fend, addrByte (byteOf7 a), byteOf7 c] p
    simp only [encode, frameAddr, withCrc, List.cons_append, List.nil_append] at hend ⊢
    simp [decodeFrame, msb_addrByte, msb_byteOf7, hend, low7_addrByte_byteOf7, low7_byteOf7, haddr]
  | crcInit | crcUpdate | stuff | unstuff1 | build | decStart | decFeed | decTick | decRead | wFend | wEscFend
  | wEscFesc | wEscBad | wEscPart | wLit => cases hframe

/-- An instruction presented in its own format decodes to itself and leaves no bytes. -/
theorem decode_request {i : Instr} {inFrame : Bool} (hd : cfg.distinct) (hwf : i.wf cfg = true)
    (hfits : i.fits = true) (hback : readsBack cfg inFrame i) :
    decode cfg inFrame (request cfg i) = .ok (i, []) := by
  cases hformat : i.format with
  | op => simpa [decode, request, hformat] using decodeOp_encode_append (cfg := cfg) hformat hfits []
  | token => simp [decode, request, hformat, decodeToken_encode hd hformat hwf hback, Except.map]
  | frame => simp [decode, request, hformat, decodeFrame_encode hformat hwf, Except.map]

/-- No encoding is empty: the lemmas of Laws/PerInstr.lean in one. -/
theorem encode_ne_nil : ∀ i : Instr, encode cfg i ≠ []
  | .crcInit => Laws.EncodeNonempty.crcInit cfg
  | .crcUpdate d => Laws.EncodeNonempty.crcUpdate d cfg
  | .stuff x => Laws.EncodeNonempty.stuff x cfg
  | .unstuff1 buf => Laws.EncodeNonempty.unstuff1 buf cfg
  | .build cmd addr p => Laws.EncodeNonempty.build cmd addr p cfg
  | .decStart => Laws.EncodeNonempty.decStart cfg
  | .decFeed c => Laws.EncodeNonempty.decFeed c cfg
  | .decTick => Laws.EncodeNonempty.decTick cfg
  | .decRead => Laws.EncodeNonempty.decRead cfg
  | .wFend => Laws.EncodeNonempty.wFend cfg
  | .wEscFend => Laws.EncodeNonempty.wEscFend cfg
  | .wEscFesc => Laws.EncodeNonempty.wEscFesc cfg
  | .wEscBad x => Laws.EncodeNonempty.wEscBad x cfg
  | .wEscPart => Laws.EncodeNonempty.wEscPart cfg
  | .wLit b => Laws.EncodeNonempty.wLit b cfg
  | .fUnaddr c p => Laws.EncodeNonempty.fUnaddr c p cfg
  | .fAddr a c p => Laws.EncodeNonempty.fAddr a c p cfg

/-! What a step executes. -/

theorem queueAfter_nil (r : Request) (later : List Issue) : queueAfter r [] later = later := rfl

theorem queueAfter_of_ne_nil {rest : Bytes} (h : rest ≠ []) (r : Request) (later : List Issue) :
    queueAfter r rest later = .encoded { r with bytes := rest } :: later :=
  if_neg h

/-- A request that decodes is executed, with the instruction's bytes taken off the queue (R60, R93). -/
theorem step_encoded {i : Instr} {r : Request} {rest : Bytes} {later : List Issue} (hc : s.cfg.wf)
    (hp : s.pending = .encoded r :: later) (hr : decode s.cfg s.decPhase.inFrame r = .ok (i, rest)) :
    step s = exec i { s with pending := queueAfter r rest later } := by
  simp only [step, fetch, configRefusal_of_wf hc, hp, hr]

/-- An instruction issued whole is executed as it is (R3, R91). -/
theorem step_whole {i : Instr} {later : List Issue} (hc : s.cfg.wf) (hwf : i.wf s.cfg = true)
    (hp : s.pending = .whole i :: later) : step s = exec i { s with pending := later } := by
  simp only [step, fetch_whole hc hwf hp]

theorem step_whole_illFormed {i : Instr} {later : List Issue} (hc : s.cfg.wf) (hwf : i.wf s.cfg = false)
    (hp : s.pending = .whole i :: later) : step s = .refused .illFormedInstruction := by
  simp [step, fetch, configRefusal_of_wf hc, hp, hwf]

/-- Settles O10: `queueAfter` is the queue the statement writes out. -/
theorem stepRunsDecodedInstruction : Obligations.StepRunsDecodedInstruction :=
  fun _ _ _ _ _ hc hp hr => step_encoded hc hp hr

/-- Settles O11: a whole instruction is fetched as it is, an encoded one is read back and leaves no bytes. -/
theorem stepRunsIssuedInstruction : Obligations.StepRunsIssuedInstruction := by
  intro s i later hc
  refine ⟨fun hwf hp => step_whole hc hwf hp, fun hwf hfits hback hp => ?_,
    fun hwf hp => step_whole_illFormed hc hwf hp⟩
  rw [step_encoded hc hp (decode_request hc.1 hwf hfits hback), queueAfter_nil]

/-! No instruction reads the queue: executed over another queue it has the same outcome, with that queue kept. -/

/-- An outcome with the queue of its next state replaced. -/
def withQueue (q : List Issue) : Outcome → Outcome
  | .next t => .next { t with pending := q }
  | .fault f => .fault f
  | .refused r => .refused r

theorem feed_withQueue (s : State) (w : Bytes) (q : List Issue) :
    feed { s with pending := q } w = { feed s w with pending := q } := by
  obtain ⟨-, hacc, helapsed, hout, -⟩ := feed_frame s w
  have hfeed := feed_withOthers s.crcAcc s.decElapsed s.out q s w
  rw [← hacc, ← helapsed, ← hout] at hfeed
  simpa only [State.withOthers, hacc, helapsed, hout] using hfeed

theorem tick_withQueue (s : State) (q : List Issue) :
    tick { s with pending := q } = { tick s with pending := q } := by
  unfold tick
  dsimp only
  split_ifs <;> rfl

theorem exec_input_withQueue {i : Instr} {w : Bytes} (h : i.wireBytes s.cfg = some w) (q : List Issue) :
    exec i { s with pending := q } = withQueue q (exec i s) := by
  rw [exec_input h, exec_input (s := { s with pending := q }) h, feed_withQueue]
  rfl

theorem exec_withQueue (i : Instr) (s : State) (q : List Issue) :
    exec i { s with pending := q } = withQueue q (exec i s) := by
  cases i with
  | crcInit | stuff | unstuff1 | decStart | decRead => rfl
  | crcUpdate d =>
    simp only [exec, execCrcUpdate]
    cases s.crcAcc <;> rfl
  | build cmd addr p =>
    simp only [exec, execBuild]
    split_ifs <;> rfl
  | decTick => simp only [exec, execDecTick, tick_withQueue, withQueue, State.drive]
  | decFeed | wFend | wEscFend | wEscFesc | wEscBad | wEscPart | wLit | fUnaddr | fAddr =>
    exact exec_input_withQueue rfl q

/-! A stream of records. -/

/-- The queue with the records of `is` first, and none of them where `is` is empty, which is what the step that executes
the last record leaves. -/
def streamQueue (cfg : Config) (is : List Instr) (later : List Issue) : List Issue :=
  queueAfter ⟨.op, []⟩ (is.flatMap (encode cfg)) later

theorem streamQueue_cons (i : Instr) (is : List Instr) (later : List Issue) :
    streamQueue cfg (i :: is) later = .encoded ⟨.op, (i :: is).flatMap (encode cfg)⟩ :: later :=
  queueAfter_of_ne_nil (by simp [encode_ne_nil]) _ _

/-- A step on a stream executes its first record and leaves the stream of the others (R60, R93). -/
theorem step_stream {i : Instr} (hc : s.cfg.wf) (hop : i.format = .op) (hfits : i.fits = true) (is : List Instr)
    (later : List Issue) :
    step { s with pending := streamQueue s.cfg (i :: is) later } =
      exec i { s with pending := streamQueue s.cfg is later } :=
  step_encoded (r := ⟨.op, (i :: is).flatMap (encode s.cfg)⟩) hc (streamQueue_cons i is later)
    (decodeOp_encode_append hop hfits _)

/-- Running a stream of records is executing its instructions in order, for the empty stream too. -/
theorem run_stream (is : List Instr) (later : List Issue) (hc : s.cfg.wf)
    (his : ∀ i ∈ is, i.format = .op ∧ i.fits = true) :
    Host.Core.run core is.length { s with pending := streamQueue s.cfg is later } =
      execAll is { s with pending := later } := by
  induction is generalizing s with
  | nil => rfl
  | cons i is ih =>
    obtain ⟨⟨hop, hfits⟩, his⟩ := List.forall_mem_cons.1 his
    have hstep : core.step { s with pending := streamQueue s.cfg (i :: is) later } =
        withQueue (streamQueue s.cfg is later) (exec i { s with pending := later }) :=
      (step_stream hc hop hfits is later).trans (exec_withQueue i { s with pending := later } _)
    cases hi : exec i { s with pending := later } with
    | next t =>
      obtain ⟨hcfg, hpending⟩ : t.cfg = s.cfg ∧ t.pending = later := exec_frame hi
      rw [hi, ← hcfg] at hstep
      rw [execAll_cons_next hi, List.length_cons, ← hcfg]
      refine (core_run_next hstep is.length).trans ((ih (s := t) (hcfg ▸ hc) his).trans ?_)
      rw [← hpending]
    | fault f =>
      rw [hi] at hstep
      rw [execAll_cons_stop (by simp [hi]), hi]
      exact core_run_fault hstep is.length
    | refused r =>
      rw [hi] at hstep
      rw [execAll_cons_stop (by simp [hi]), hi]
      exact core_run_refused hstep is.length

/-- Settles O12, by induction on the operations: each step leaves the stream of the operations after it, and the outcome
of an operation does not depend on the queue. -/
theorem recordStreamRunsAsProgram : Obligations.RecordStreamRunsAsProgram := by
  intro s is later hc hne his
  obtain ⟨i, js, rfl⟩ := List.exists_cons_of_ne_nil hne
  rw [← streamQueue_cons]
  exact run_stream (i :: js) later hc his

/-! The operations that change no state (R58). -/

/-- `BUILD` within its bound drives the stuffed frame, and over it is refused (R147, R148). -/
theorem exec_build_of_not_overMax {p : Bytes} (h : overMax s.cfg p = false) (cmd addr : Byte) :
    exec (.build cmd addr p) s = .next (s.drive (.wire (build s.cfg cmd addr p))) :=
  if_neg (by simp [h])

theorem exec_build_of_overMax {p : Bytes} (h : overMax s.cfg p = true) (cmd addr : Byte) :
    exec (.build cmd addr p) s = .refused .payloadTooLong :=
  if_pos h

/-- Settles O57: what each of the four drives does not depend on the output port. -/
theorem pureOperationsRepeat : Obligations.PureOperationsRepeat := by
  intro i s t hpure h
  obtain ⟨b, rfl⟩ | ⟨b, rfl⟩ | ⟨c, a, p, rfl⟩ | rfl := hpure
  · cases h
    exact ⟨rfl, rfl⟩
  · cases h
    exact ⟨rfl, rfl⟩
  · cases hmax : overMax s.cfg p with
    | false =>
      rw [exec_build_of_not_overMax hmax] at h
      cases h
      exact ⟨rfl, exec_build_of_not_overMax hmax c a⟩
    | true =>
      rw [exec_build_of_overMax hmax] at h
      cases h
  · cases h
    exact ⟨rfl, rfl⟩

end Sys2Proof.Machine
end

section
/-! PROOFS. The family 30_encoding.md: decoding and encoding are inverse in all three formats (R73 to R76, R90, R93),
the reserved operation codes (R92), the pseudo-operation `CRC8` (R95), and the wire tokens as the decoder takes them
inside and outside a frame (R73, R74). -/

namespace Sys2Proof.Machine

open Sys2Proof.Claims

variable {cfg : Config} {s : State}

/-! Encoding, then decoding. -/

/-- Settles O6: each format is read back by its own lemma. The two readings of the byte `FEND` are one request, of which
`readsBack` names the reading for either context. -/
theorem encodeThenDecodeGivesBack : Obligations.EncodeThenDecodeGivesBack := by
  intro cfg inFrame hd
  have hfend : Instr.wf cfg (.wLit cfg.fend) = true := bne_iff_ne.2 hd.1
  refine ⟨fun i hwf hfits hback => decode_request hd hwf hfits hback, fun i rest _ hfits hop => ?_, ?_, ?_⟩
  · exact decodeOp_encode_append hop hfits rest
  · exact decode_request (i := .wLit cfg.fend) hd hfend rfl fun _ => rfl
  · exact decode_request (i := .wFend) hd rfl rfl rfl

/-! Decoding, then encoding: what each reader of the decoder answers tells the bytes it read. -/

/-- What a sequence operand was read from (R93). -/
theorem seqOperand_eq_ok {mk : Bytes → Instr} {b rest : Bytes} {i : Instr} (h : seqOperand mk b = .ok (i, rest)) :
    ∃ x, seqFits x = true ∧ i = mk x ∧ seqRecord x ++ rest = b := by
  unfold seqOperand at h
  split at h
  · rename_i x r hread
    obtain ⟨hlen, hb⟩ := readSeq_eq_some hread
    obtain ⟨rfl, rfl⟩ := by simpa using h
    exact ⟨x, decide_eq_true hlen, rfl, hb.symm⟩
  · cases h

/-- What an operation record was read from: operation code, operands, and what is left (R90, R93). -/
theorem decodeOp_eq_ok {b rest : Bytes} {i : Instr} (h : decodeOp b = .ok (i, rest)) :
    i.format = .op ∧ i.fits = true ∧ encode cfg i ++ rest = b := by
  match b with
  | [] => cases h
  | op :: operands =>
    have hop {n : Nat} (hn : op.toNat = n) : op = BitVec.ofNat 8 n := by simp [← hn]
    simp only [decodeOp] at h
    split at h
    case h_1 hcode | h_6 hcode | h_8 hcode | h_9 hcode =>
      cases h
      exact ⟨rfl, rfl, by rw [hop hcode]; rfl⟩
    case h_2 hcode =>
      split at h
      · cases h
        exact ⟨rfl, rfl, by rw [hop hcode]; rfl⟩
      · cases h
    case h_3 hcode | h_4 hcode | h_7 hcode =>
      obtain ⟨x, hfits, rfl, rfl⟩ := seqOperand_eq_ok h
      exact ⟨rfl, hfits, by rw [hop hcode]; rfl⟩
    case h_5 hcode =>
      split at h
      · obtain ⟨x, hfits, rfl, rfl⟩ := seqOperand_eq_ok h
        exact ⟨rfl, hfits, by rw [hop hcode]; rfl⟩
      · cases h
    case h_10 => cases h

/-- The operands of an operation may be any (R91). -/
theorem wf_of_format_op {i : Instr} (h : i.format = .op) : i.wf cfg = true := by
  cases i with
  | wEscBad | wLit | fAddr => cases h
  | _ => rfl

/-- What a token was read from; its follower or literal is one of its row's (R73, R74). -/
theorem decodeToken_eq_ok {inFrame : Bool} {b : Bytes} {i : Instr} (h : decodeToken cfg inFrame b = .ok i) :
    i.format = .token ∧ i.wf cfg = true ∧ encode cfg i = b := by
  match b with
  | [] => cases h
  | [c] =>
    simp only [decodeToken] at h
    split_ifs at h with hfesc hfend <;> cases h
    · exact ⟨rfl, rfl, by rw [hfesc]; rfl⟩
    · exact ⟨rfl, rfl, by rw [hfend.1]; rfl⟩
    · exact ⟨rfl, bne_iff_ne.2 hfesc, rfl⟩
  | [c, x] =>
    simp only [decodeToken] at h
    split_ifs at h with hfesc htfend htfesc <;> cases h
    · exact ⟨rfl, rfl, by rw [hfesc, htfend]; rfl⟩
    · exact ⟨rfl, rfl, by rw [hfesc, htfesc]; rfl⟩
    · exact ⟨rfl, by simp [Instr.wf, htfend, htfesc], by rw [hfesc]; rfl⟩
  | _ :: _ :: _ :: _ => cases h

/-- What the end of a frame was read from: length byte, payload, checksum (R75, R76, R79). -/
theorem frameEnd_eq_some {head b p : Bytes} (h : frameEnd cfg head b = some p) :
    b = lenByte p :: (p ++ [crc8 cfg (head ++ lenByte p :: p)]) := by
  unfold frameEnd at h
  split at h
  · cases h
  · split at h
    · cases h
    · rename_i l body k hlast
      split_ifs at h with hends
      obtain ⟨rfl, rfl⟩ := hends
      cases h
      rw [List.dropLast_append_getLast? _ hlast]

/-- A byte is its bit 7 and its low seven bits (R11). -/
theorem byte_eq_of_msb_of_low7 {v w : Byte} (hmsb : v.msb = w.msb) (hlow : low7 v = low7 w) : v = w := by
  have hmod : v.toNat % 128 = w.toNat % 128 := by simpa [low7] using congrArg BitVec.toNat hlow
  have hbit : 128 ≤ v.toNat ↔ 128 ≤ w.toNat := by simpa [BitVec.msb_eq_decide] using hmsb
  have hv := v.isLt
  have hw := w.isLt
  apply BitVec.eq_of_toNat_eq
  omega

/-- A command byte is read back from its low seven bits (R75). -/
theorem byteOf7_low7 {v : Byte} (h : v.msb = false) : byteOf7 (low7 v) = v :=
  byte_eq_of_msb_of_low7 ((msb_byteOf7 _).trans h.symm) (low7_byteOf7 _)

/-- An address byte is read back from its low seven bits (R76, R78). -/
theorem addrByte_byteOf7_low7 {v : Byte} (h : v.msb = true) : addrByte (byteOf7 (low7 v)) = v :=
  byte_eq_of_msb_of_low7 ((msb_addrByte _).trans h.symm) (low7_addrByte_byteOf7 _)

/-- What a frame was read from (R75, R76). -/
theorem decodeFrame_eq_ok {b : Bytes} {i : Instr} (h : decodeFrame cfg b = .ok i) :
    i.format = .frame ∧ i.wf cfg = true ∧ encode cfg i = b := by
  match b with
  | [] => cases h
  | [_] => cases h
  | f :: c :: tail =>
    simp only [decodeFrame] at h
    split_ifs at h with hfend hmsb
    · split at h
      · rename_i p hend
        cases h
        refine ⟨rfl, rfl, ?_⟩
        rw [frameEnd_eq_some hend]
        simp [encode, frameUnaddr, withCrc, byteOf7_low7 hmsb, hfend]
      · cases h
    · split at h
      · rename_i d tail
        split_ifs at h with haddr
        obtain ⟨hne, hcmd⟩ := haddr
        split at h
        · rename_i p hend
          cases h
          refine ⟨rfl, by simpa [Instr.wf] using hne, ?_⟩
          rw [frameEnd_eq_some hend]
          simp [encode, frameAddr, withCrc, byteOf7_low7 hcmd, addrByte_byteOf7_low7 (eq_true_of_ne_false hmsb), hfend]
        · cases h
      · cases h

/-- Only the sequences of an operation record are bounded (R93). -/
theorem fits_of_format_ne_op {i : Instr} (h : i.format ≠ .op) : i.fits = true := by
  cases i with
  | stuff | unstuff1 | build | decFeed => exact absurd rfl h
  | _ => rfl

/-- A token or frame that decodes is read whole: nothing is left. -/
theorem map_whole_eq_ok {e : Except DecodeError Instr} {i : Instr} {rest : Bytes}
    (h : e.map (·, ([] : Bytes)) = .ok (i, rest)) : e = .ok i ∧ rest = [] := by
  cases e with
  | error _ => cases h
  | ok j => cases h; exact ⟨rfl, rfl⟩

/-- Settles O7, one case for each of the three encodings. -/
theorem decodeThenEncodeGivesBack : Obligations.DecodeThenEncodeGivesBack := by
  rintro cfg inFrame ⟨format, bytes⟩ i rest h
  cases format with
  | op =>
    obtain ⟨hformat, hfits, hbytes⟩ := decodeOp_eq_ok (cfg := cfg) h
    exact ⟨wf_of_format_op hformat, hfits, hformat, hbytes⟩
  | token =>
    obtain ⟨htoken, rfl⟩ := map_whole_eq_ok h
    obtain ⟨hformat, hwf, hbytes⟩ := decodeToken_eq_ok htoken
    exact ⟨hwf, fits_of_format_ne_op (by simp [hformat]), hformat, by simpa using hbytes⟩
  | frame =>
    obtain ⟨hframe, rfl⟩ := map_whole_eq_ok h
    obtain ⟨hformat, hwf, hbytes⟩ := decodeFrame_eq_ok hframe
    exact ⟨hwf, fits_of_format_ne_op (by simp [hformat]), hformat, by simpa using hbytes⟩

/-- Settles O8: each word is evaluated, the frames with their checksums in the default table. -/
theorem specWordsDecode : Obligations.SpecWordsDecode := by
  refine ⟨?_, ?_, ?_, ?_, ?_, ?_, ?_, ?_⟩ <;> decide

/-! The reserved operation codes. -/

/-- The codes outside 1 to 9 select no operation, whatever follows them (R92). -/
theorem decodeOp_reserved {op : Byte} (h : op.toNat = 0x00 ∨ 0x0A ≤ op.toNat) (rest : Bytes) :
    decodeOp (op :: rest) = .error .reservedOp := by
  simp only [decodeOp]
  split
  case h_10 => rfl
  all_goals omega

/-- A request that does not decode is refused by the name of its error (R92, R218). -/
theorem step_encoded_error {r : Request} {later : List Issue} {e : DecodeError} (hc : s.cfg.wf)
    (hp : s.pending = .encoded r :: later) (hr : decode s.cfg s.decPhase.inFrame r = .error e) :
    step s = .refused (decodeRefusal e) := by
  simp only [step, fetch, configRefusal_of_wf hc, hp, hr]

/-- Settles O9: the first record does not decode, whatever its operands. -/
theorem reservedOperationCodesRefused : Obligations.ReservedOperationCodesRefused :=
  fun _ _ rest _ hc hp hop => step_encoded_error hc hp (decodeOp_reserved hop rest)

/-! The pseudo-operation `CRC8`. -/

/-- What the CRC operations leave: the value in the accumulator and on the output port (R100, R101). -/
def State.outputAcc (s : State) (a : Byte) : State := (s.setCrcAcc a).drive (.acc a)

theorem exec_crcInit (s : State) : exec .crcInit s = .next (s.outputAcc s.cfg.seed) := rfl

theorem exec_crcUpdate_outputAcc (s : State) (a d : Byte) :
    exec (.crcUpdate d) (s.outputAcc a) = .next (s.outputAcc (crcStep s.cfg a d)) := rfl

/-- A run of `CRC_UPDATE`s folds the CRC step over its bytes (R101, R104). -/
theorem execAll_crcUpdates (s : State) (b : Bytes) (a : Byte) :
    execAll (b.map .crcUpdate) (s.outputAcc a) = .next (s.outputAcc (b.foldl (crcStep s.cfg) a)) := by
  induction b generalizing a with
  | nil => rfl
  | cons d b ih => exact (execAll_cons_next (exec_crcUpdate_outputAcc s a d) _).trans (ih _)

/-- Settles O16: `CRC_INIT` loads the seed the fold starts from. -/
theorem crc8OperationsComputeChecksum : Obligations.Crc8OperationsComputeChecksum :=
  fun s b => (execAll_cons_next (exec_crcInit s) _).trans (execAll_crcUpdates s b s.cfg.seed)

/-! The wire tokens. -/

/-- Settles O44: `DEC_FEED` is itself an input instruction, and its wire bytes are its chunk. -/
theorem inputArrivesInWireForm : Obligations.InputArrivesInWireForm :=
  fun _ _ _ h => ⟨exec_input h, (exec_input h).trans (exec_input rfl).symm⟩

/-- In an active phase an input instruction appends its wire bytes and runs the decoder (R162; log entry 8). -/
theorem exec_input_active {i : Instr} {w : Bytes} (h : i.wireBytes s.cfg = some w) (ha : s.decPhase.active = true) :
    exec i s = .next ((run (s.appendBuf w)).drive .nothing) := by
  rw [exec_input h, feed_of_active ha]

/-- With nothing buffered the wire bytes are all there is to read. -/
theorem exec_input_nil {i : Instr} {w : Bytes} (h : i.wireBytes s.cfg = some w) (ha : s.decPhase.active = true)
    (hb : s.decBuf = []) : exec i s = .next ((run { s with decBuf := w }).drive .nothing) := by
  rw [exec_input_active h ha, State.appendBuf, hb, List.nil_append]

/-- In `SEEK_DELIM` a buffer without `FEND` is kept (R164). -/
theorem run_seek_wait (hp : s.decPhase = .seekDelim) (hn : s.cfg.fend ∉ s.decBuf) : run s = s :=
  run_of_none (decStep_eq_none.2 (.inr (.inl ⟨hp, hn⟩)))

/-- In a frame an empty buffer waits for a token, where one is to be read (R126). -/
theorem run_frame_nil (hframe : s.decPhase.inFrame = true)
    (hdata : s.decPhase = .data → s.decPayload.length ≠ s.decLen.toNat) (hb : s.decBuf = []) : run s = s :=
  run_of_none (decStep_eq_none.2 (.inr (.inr ⟨hframe, hdata, .inl hb⟩)))

/-- A buffer whose first `FEND` is its last byte starts a frame, with nothing left to read (R74, R164). -/
theorem run_seek_fend {pre : Bytes} (hp : s.decPhase = .seekDelim) (hb : s.decBuf = pre ++ [s.cfg.fend])
    (hn : s.cfg.fend ∉ pre) : run s = { s with decBuf := [], decPhase := .cmd } :=
  (run_seek hp hb hn).trans (run_frame_nil rfl nofun rfl)

/-- Settles O46: the first `FEND` of the kept bytes and the token's is the token's last byte, or there is none. -/
theorem tokensOutsideFrame : Obligations.TokensOutsideFrame := by
  intro s hd hp hn
  have ha : s.decPhase.active = true := by simp [hp]
  refine ⟨?_, fun i w _ hw hfend => ?_, ?_⟩
  · rw [exec_input_active rfl ha, run_seek_fend (s := s.appendBuf [s.cfg.fend]) hp rfl hn]
    rfl
  · have hn' : s.cfg.fend ∉ s.decBuf ++ w := by simp [hn, hfend]
    rw [exec_input_active hw ha, run_seek_wait (s := s.appendBuf w) hp hn']
    rfl
  · have hn' : s.cfg.fend ∉ s.decBuf ++ [s.cfg.fesc] := by simp [hn, hd.1]
    rw [exec_input_active rfl ha, run_seek_fend (s := s.appendBuf [s.cfg.fesc, s.cfg.fend]) hp (by simp) hn']
    rfl

/-- The wire bytes of an instruction that yields a byte are one token that reads as it (R73). -/
theorem wireBytes_of_yields {i : Instr} {b : Byte} (hd : cfg.distinct) (h : yields cfg i = some b) :
    ∃ w, i.wireBytes cfg = some w ∧ IsToken cfg w b := by
  cases i with
  | wEscFend =>
    cases h
    exact ⟨_, rfl, by simpa [stuffByte] using isToken_stuffByte hd cfg.fend⟩
  | wEscFesc =>
    cases h
    exact ⟨_, rfl, by simpa [stuffByte, hd.1.symm] using isToken_stuffByte hd cfg.fesc⟩
  | wLit c =>
    simp only [yields] at h
    split_ifs at h with hc
    cases h
    exact ⟨_, rfl, isToken_literal hc⟩
  | _ => cases h

/-- In `DATA` with nothing buffered the payload is complete, or the decoder waits for its next byte (R167). -/
theorem run_data_nil (hp : s.decPhase = .data) (hb : s.decBuf = []) :
    run s = { s with decPhase := if s.decPayload.length = s.decLen.toNat then .crc else .data } := by
  split_ifs with hl
  · exact (run_dataDone hp hl).trans (run_frame_nil rfl nofun hb)
  · rw [run_frame_nil (by simp [hp]) (fun _ => hl) hb, ← hp]

/-- The checksum byte ends the frame either way, and an empty buffer holds nothing to go on with (R168 to R170). -/
theorem run_takeCrc_nil (hb : s.decBuf = []) (k : Byte) : run (takeCrc s k) = takeCrc s k := by
  unfold takeCrc
  split_ifs
  · exact run_of_none (decStep_eq_none.2 (.inl rfl))
  · exact run_seek_wait rfl (by simp [hb])

/-- A malformed escape where a token is to be read (R171). -/
theorem run_badEscape {x : Byte} {r : Bytes} (hframe : s.decPhase.inFrame = true)
    (hdata : s.decPhase = .data → s.decPayload.length ≠ s.decLen.toNat) (hb : s.decBuf = s.cfg.fesc :: x :: r)
    (htfend : x ≠ s.cfg.tfend) (htfesc : x ≠ s.cfg.tfesc) : run s = run (s.badEscape 1) := by
  have htoken (onByte) : stepToken s onByte = some (s.badEscape 1) := by
    simp [stepToken, unstuff1, hb, htfend, htfesc]
  apply run_of_some
  cases hp : s.decPhase with
  | cmd | len | crc => simp only [decStep, hp, htoken]
  | data => simp only [decStep, hp, if_neg (hdata hp), htoken]
  | idle | seekDelim | doneOk | doneTimeout => simp [hp] at hframe

/-- In `SEEK_DELIM` one buffered byte starts a frame when it is `FEND` and is kept otherwise (R164). -/
theorem run_seek_byte {x : Byte} (hp : s.decPhase = .seekDelim) (hb : s.decBuf = [x]) :
    run s = { s with
      decBuf := if x = s.cfg.fend then [] else [x]
      decPhase := if x = s.cfg.fend then .cmd else .seekDelim } := by
  split_ifs with hx
  · exact run_seek_fend (pre := []) hp (by simp [hb, hx]) (by simp)
  · rw [run_seek_wait hp (by simpa [hb] using Ne.symm hx), ← hb, ← hp]

/-! A token that yields a byte, arriving in a frame with nothing buffered: one lemma per phase. -/

section Yielding

variable {i : Instr} {w : Bytes} {b : Byte}

/-- The byte is the command (R165). -/
theorem exec_token_cmd (hb : s.decBuf = []) (hw : i.wireBytes s.cfg = some w) (ht : IsToken s.cfg w b)
    (hp : s.decPhase = .cmd) : exec i s = .next { s with decCmd := b, decPhase := .len, out := .nothing } := by
  rw [exec_input_nil hw (by simp [hp]) hb, run_takeCmd (s := { s with decBuf := w }) (r := []) hp (by simp) ht,
    run_frame_nil rfl (by simp) rfl]
  simp [State.drive, hb]

/-- The byte is the length, and length 0 leaves no payload to read (R166, R167). -/
theorem exec_token_len (hb : s.decBuf = []) (hw : i.wireBytes s.cfg = some w) (ht : IsToken s.cfg w b)
    (hp : s.decPhase = .len) :
    exec i s = .next { s with
      decLen := b, decPayload := [], decPhase := if b = 0 then .crc else .data, out := .nothing } := by
  have hzero : 0 = b.toNat ↔ b = 0 := by simp [BitVec.toNat_eq, eq_comm]
  rw [exec_input_nil hw (by simp [hp]) hb, run_takeLen (s := { s with decBuf := w }) (r := []) hp (by simp) ht,
    run_data_nil rfl rfl]
  simp [State.drive, hb, hzero]

/-- The byte is one of the payload, which may complete it (R167). -/
theorem exec_token_data (hb : s.decBuf = []) (hw : i.wireBytes s.cfg = some w) (ht : IsToken s.cfg w b)
    (hp : s.decPhase = .data) (hl : s.decPayload.length ≠ s.decLen.toNat) :
    exec i s = .next { s with
      decPayload := s.decPayload ++ [b],
      decPhase := if s.decPayload.length + 1 = s.decLen.toNat then .crc else .data, out := .nothing } := by
  rw [exec_input_nil hw (by simp [hp]) hb, run_takeData (s := { s with decBuf := w }) (r := []) hp hl (by simp) ht,
    run_data_nil (by exact hp) rfl]
  simp [State.drive, hb]

/-- The byte is the received checksum (R168). -/
theorem exec_token_crc (hb : s.decBuf = []) (hw : i.wireBytes s.cfg = some w) (ht : IsToken s.cfg w b)
    (hp : s.decPhase = .crc) : exec i s = .next ((takeCrc s b).drive .nothing) := by
  rw [exec_input_nil hw (by simp [hp]) hb, run_takeCrc (s := { s with decBuf := w }) (r := []) hp (by simp) ht,
    run_takeCrc_nil rfl, ← hb]

end Yielding

/-- A lone `FESC` is kept until its follower arrives (R73, R126). -/
theorem exec_wEscPart_inFrame (hb : s.decBuf = []) (hframe : s.decPhase.inFrame = true)
    (hdata : s.decPhase = .data → s.decPayload.length ≠ s.decLen.toNat) :
    exec .wEscPart s = .next { s with decBuf := [s.cfg.fesc], out := .nothing } := by
  have hwait : decStep { s with decBuf := [s.cfg.fesc] } = none :=
    decStep_eq_none.2 (.inr (.inr ⟨hframe, hdata, .inr rfl⟩))
  rw [exec_input_nil rfl (Phase.active_of_inFrame hframe) hb, run_of_none hwait]
  rfl

/-- A malformed escape is reported, and its follower is examined in `SEEK_DELIM` (R73, R171, R164). -/
theorem exec_wEscBad_inFrame {x : Byte} (hb : s.decBuf = []) (hframe : s.decPhase.inFrame = true)
    (hdata : s.decPhase = .data → s.decPayload.length ≠ s.decLen.toNat) (htfend : x ≠ s.cfg.tfend)
    (htfesc : x ≠ s.cfg.tfesc) :
    exec (.wEscBad x) s = .next { afterBadEscape s x with
      decBuf := if x = s.cfg.fend then [] else [x]
      decPhase := if x = s.cfg.fend then .cmd else .seekDelim
      out := .nothing } := by
  rw [exec_input_nil rfl (Phase.active_of_inFrame hframe) hb,
    run_badEscape (s := { s with decBuf := [s.cfg.fesc, x] }) hframe hdata rfl htfend htfesc,
    run_seek_byte (x := x) rfl rfl]
  rfl

/-- Settles O45: what yields a byte is one token, taken as its phase takes it; the other two tokens are the escapes that
yield none. -/
theorem tokensInsideFrame : Obligations.TokensInsideFrame := by
  intro s hd hb
  refine ⟨fun i b hyields => ?_, fun hframe hdata => ?_⟩
  · obtain ⟨w, hw, ht⟩ := wireBytes_of_yields hd hyields
    refine ⟨exec_token_cmd hb hw ht, exec_token_len hb hw ht, fun hp hl => exec_token_data hb hw ht hp hl.ne,
      fun hp => ?_⟩
    rw [exec_token_crc hb hw ht hp, takeCrc, State.expectedCrc]
    split_ifs <;> rfl
  · have hdata' : s.decPhase = .data → s.decPayload.length ≠ s.decLen.toNat := fun hp => (hdata hp).ne
    exact ⟨exec_wEscPart_inFrame hb hframe hdata', fun _ => exec_wEscBad_inFrame hb hframe hdata'⟩

end Sys2Proof.Machine
end

section
/-! PROOFS. The family 40_crc8.md: the generator of the default table (R103), the CRC operations (R100, R101, R107), and
the laws of the checksum (R105, R106). -/

open Sys2Proof.Claims

namespace Sys2Proof.Machine

variable {cfg : Config}

/-! The operations. -/

/-- Settles O14: what `CRC_INIT` leaves is the statement's next state, written out. -/
theorem crcInitLoadsSeed : Obligations.CrcInitLoadsSeed := exec_crcInit

theorem exec_crcUpdate_unset {s : State} (h : s.crcAcc = none) (d : Byte) :
    exec (.crcUpdate d) s = .fault .crcUninitialised := by
  simp only [exec, execCrcUpdate, h]

theorem exec_crcUpdate_of_acc {s : State} {a : Byte} (h : s.crcAcc = some a) (d : Byte) :
    exec (.crcUpdate d) s = .next (s.outputAcc (crcStep s.cfg a d)) := by
  simp only [exec, execCrcUpdate, h, State.outputAcc]

/-- Settles O15: in a well-formed configuration the step's read is within the table. -/
theorem crcUpdateAbsorbsByte : Obligations.CrcUpdateAbsorbsByte := by
  intro s d
  refine ⟨fun h => exec_crcUpdate_unset h d, fun a hwf ha => ?_⟩
  obtain ⟨-, hsized, -⟩ := hwf
  exact ⟨crcStep s.cfg a d, tableAt_eq hsized (a ^^^ d), exec_crcUpdate_of_acc ha d⟩

/-! The laws that hold for any table (R105), and for any permutation (R106 (a)). -/

/-- Absorbing the accumulator itself reads entry 0 (R105 (c)). -/
theorem crcStep_self (acc : Byte) : crcStep cfg acc acc = tableAt cfg 0 := by
  simp [crcStep]

/-- Settles O17: the residue is one step from the checksum by the checksum. -/
theorem checksumLaws : Obligations.ChecksumLaws := by
  refine ⟨fun cfg s t => ⟨rfl, crc8_append s t, ?_⟩, rfl, rfl⟩
  rw [crc8_append]
  exact crcStep_self _

theorem crcStep_injective_acc (hperm : TablePermutation cfg) (b : Byte) :
    Function.Injective fun acc => crcStep cfg acc b :=
  fun _ _ h => (BitVec.xor_left_inj b).1 (hperm _ _ h)

theorem crcStep_injective_byte (hperm : TablePermutation cfg) (acc : Byte) :
    Function.Injective (crcStep cfg acc) :=
  fun _ _ h => (BitVec.xor_right_inj acc).1 (hperm _ _ h)

/-- With a permutation table, whatever is absorbed keeps two accumulators apart. -/
theorem foldl_crcStep_injective (hperm : TablePermutation cfg) (s : Bytes) :
    Function.Injective (s.foldl (crcStep cfg)) := by
  induction s with
  | nil => exact Function.injective_id
  | cons b s ih => exact ih.comp (crcStep_injective_acc hperm b)

/-- Settles O18: the changed byte parts the accumulators, and the rest keeps them apart. -/
theorem changedByteChangesChecksum : Obligations.ChangedByteChangesChecksum := by
  intro cfg pre post b b' hperm hne heq
  rw [crc8_append, crc8_append] at heq
  exact hne (crcStep_injective_byte hperm _ (foldl_crcStep_injective hperm post heq))

/-! The generator of the default table (R103): its round is linear, and has period 127. -/

/-- One round of the generator (R103). -/
def crcRound (c : Byte) : Byte := if c.getLsbD 0 then (c >>> 1) ^^^ 0x8C else c >>> 1

theorem crcGenerated_eq : crcGenerated = crcRound^[8] := rfl

/-- The default table's literals, each against the generator's eight rounds (R103). -/
theorem crc8Table_getElem? : ∀ i : Byte, crc8Table[i.toNat]? = some (crcGenerated i) := by decide

theorem tableAt_defaultConfig : tableAt defaultConfig = crcGenerated :=
  funext fun i => by simp [tableAt, defaultConfig, crc8Table_getElem? i]

/-- `f` is linear over the two-element field: it sends sums, which are XORs, to sums. -/
def XorLinear (f : Byte → Byte) : Prop := ∀ x y, f (x ^^^ y) = f x ^^^ f y

theorem XorLinear.iterate {f : Byte → Byte} (h : XorLinear f) (n : Nat) : XorLinear f^[n] := by
  induction n with
  | zero => exact fun _ _ => rfl
  | succ n ih =>
    intro x y
    simp only [Function.iterate_succ_apply, h x y, ih (f x) (f y)]

theorem crcRound_xorLinear : XorLinear crcRound := by
  have hround (c : Byte) : crcRound c = c >>> 1 ^^^ (if c.getLsbD 0 then 0x8C else 0) := by
    unfold crcRound
    split <;> simp
  have hfold : ∀ p q : Bool, (if (p ^^ q) then 0x8C else 0 : Byte) =
      (if p then 0x8C else 0) ^^^ (if q then 0x8C else 0) := by decide
  intro x y
  have hshift : (x ^^^ y) >>> 1 = x >>> 1 ^^^ y >>> 1 := BitVec.ushiftRight_xor_distrib x y 1
  rw [hround, hround, hround, hshift, BitVec.getLsbD_xor, hfold]
  ac_rfl

/-- The low `n + 1` bits of a byte are its low `n` bits and bit `n`. -/
theorem setWidth_succ_eq_xor_bit (x : Byte) (n : Nat) : (x.setWidth (n + 1)).setWidth 8 =
    (x.setWidth n).setWidth 8 ^^^ (if x.getLsbD n then BitVec.twoPow 8 n else 0) := by
  ext i hi
  obtain hlt | rfl | hgt := lt_trichotomy i n
  · cases x.getLsbD n <;> simp [hlt, hlt.trans n.lt_succ_self, hlt.ne]
  · cases hb : x.getLsbD i <;> simp [hb]
  · have hle : ¬ i < n + 1 := by omega
    cases x.getLsbD n <;> simp [hle, hgt.not_gt, hgt.ne']

/-- A byte is the XOR of its bits: what holds of 0 and of each single bit, and is kept by XOR, holds of every byte. -/
theorem byte_xor_induction {P : Byte → Prop} (hzero : P 0) (hbit : ∀ k < 8, P (BitVec.twoPow 8 k))
    (hxor : ∀ x y, P x → P y → P (x ^^^ y)) (x : Byte) : P x := by
  suffices hlow : ∀ n ≤ 8, P ((x.setWidth n).setWidth 8) by simpa using hlow 8 le_rfl
  intro n
  induction n with
  | zero =>
    intro _
    rw [BitVec.of_length_zero (x := x.setWidth 0)]
    exact hzero
  | succ n ih =>
    intro hn
    rw [setWidth_succ_eq_xor_bit]
    refine hxor _ _ (ih (by omega)) ?_
    split
    · exact hbit n hn
    · exact hzero

/-- The top bit reaches every other bit by rounds that only shift. -/
theorem twoPow_eq_crcRound_iterate : ∀ k < 8, BitVec.twoPow 8 k = crcRound^[7 - k] 0x80 := by decide

/-- The top bit is back after 127 rounds: seven of them, and fifteen reads of the table. -/
theorem crcRound_period_top : crcRound^[127] 0x80 = 0x80 := by
  have hreads : crcRound^[127] = (tableAt defaultConfig)^[15] ∘ crcRound^[7] := by
    rw [tableAt_defaultConfig, crcGenerated_eq, ← Function.iterate_mul, ← Function.iterate_add]
  rw [hreads]
  decide

/-- 127 rounds change no byte, as they change neither the top bit nor the bits it is shifted to: R106's factors have the
orders 1 and 127. -/
theorem crcRound_period : crcRound^[127] = id := by
  funext x
  induction x using byte_xor_induction with
  | hzero => exact Function.iterate_fixed rfl 127
  | hbit k hk =>
    rw [twoPow_eq_crcRound_iterate k hk, ← Function.iterate_add_apply, Nat.add_comm, Function.iterate_add_apply,
      crcRound_period_top, id]
  | hxor x y hx hy => exact (crcRound_xorLinear.iterate 127 x y).trans (congrArg₂ _ hx hy)

theorem crcGenerated_period : crcGenerated^[127] = id := by
  rw [crcGenerated_eq, ← Function.iterate_mul, Nat.mul_comm, Function.iterate_mul, crcRound_period,
    Function.iterate_id]

/-- Settles O3: what has a period is undone by the rest of it, so no two entries are equal. -/
theorem defaultTableIsGenerated : Obligations.DefaultTableIsGenerated := by
  refine ⟨crc8Table_getElem?, crc8Table_length, ?_⟩
  have hinverse : Function.LeftInverse crcGenerated^[126] crcGenerated := fun i => by
    rw [← Function.iterate_succ_apply, crcGenerated_period, id]
  rw [TablePermutation, tableAt_defaultConfig]
  exact fun _ _ h => hinverse.injective h

/-! The swaps a linear table does not detect (R106 (b), (c)). -/

theorem tableAt_defaultConfig_xorLinear : XorLinear (tableAt defaultConfig) :=
  tableAt_defaultConfig ▸ crcRound_xorLinear.iterate 8

/-- A difference of two accumulators goes through a linear table by itself, once for each byte absorbed. -/
theorem foldl_crcStep_xor (hlinear : XorLinear (tableAt cfg)) (s : Bytes) (acc d : Byte) :
    s.foldl (crcStep cfg) (acc ^^^ d) = s.foldl (crcStep cfg) acc ^^^ (tableAt cfg)^[s.length] d := by
  induction s generalizing acc d with
  | nil => rfl
  | cons b s ih =>
    have hstep : crcStep cfg (acc ^^^ d) b = crcStep cfg acc b ^^^ tableAt cfg d := by
      rw [crcStep, crcStep, ← hlinear]
      ac_rfl
    simp only [List.foldl_cons, hstep, ih, List.length_cons, Function.iterate_succ_apply]

/-- Absorbing `a` after the difference of `a` and `b` is absorbing `b`. -/
theorem crcStep_difference (acc a b : Byte) : crcStep cfg (acc ^^^ (a ^^^ b)) a = crcStep cfg acc b := by
  have hcancel : acc ^^^ (a ^^^ b) ^^^ a = acc ^^^ b := by
    rw [BitVec.xor_assoc, BitVec.xor_comm a b, BitVec.xor_assoc, BitVec.xor_self, BitVec.xor_zero]
  rw [crcStep, crcStep, hcancel]

/-- With a linear table, a swap is not detected when the table's powers bring the difference of the two bytes back to
itself over the distance between them: it then meets the second byte and makes it the first. -/
theorem crc8_swap (hlinear : XorLinear (tableAt cfg)) (pre mid post : Bytes) {a b : Byte}
    (hback : (tableAt cfg)^[mid.length + 1] (a ^^^ b) = a ^^^ b) :
    crc8 cfg (pre ++ a :: mid ++ b :: post) = crc8 cfg (pre ++ b :: mid ++ a :: post) := by
  have hfirst (acc : Byte) : (b :: mid).foldl (crcStep cfg) acc =
      (a :: mid).foldl (crcStep cfg) acc ^^^ (a ^^^ b) := by
    calc (b :: mid).foldl (crcStep cfg) acc
        = (a :: mid).foldl (crcStep cfg) (acc ^^^ (a ^^^ b)) := by
          rw [List.foldl_cons, List.foldl_cons, crcStep_difference]
      _ = (a :: mid).foldl (crcStep cfg) acc ^^^ (tableAt cfg)^[mid.length + 1] (a ^^^ b) :=
          foldl_crcStep_xor hlinear (a :: mid) acc (a ^^^ b)
      _ = _ := by rw [hback]
  rw [List.append_assoc, List.append_assoc, crc8_append, crc8_append, List.foldl_append, List.foldl_append, hfirst]
  simp only [List.foldl_cons, crcStep_difference]

/-- Settles O19: entry `0xF7` is `0xF7`, and 127 reads of the table bring every byte back. -/
theorem undetectedSwaps : Obligations.UndetectedSwaps := by
  have hlinear := tableAt_defaultConfig_xorLinear
  refine ⟨fun pre post a b h => ?_, fun pre mid post a b h => ?_⟩
  · have hback : (tableAt defaultConfig)^[1] (a ^^^ b) = a ^^^ b := by
      rw [h]
      rfl
    simpa using crc8_swap hlinear pre [] post hback
  · have hback : (tableAt defaultConfig)^[mid.length + 1] (a ^^^ b) = a ^^^ b := by
      rw [tableAt_defaultConfig, h, crcGenerated_period, id]
    exact crc8_swap hlinear pre mid post hback

end Sys2Proof.Machine
end

section
/-! PROOFS. The family 41_byte_stuffing.md: the stuffing encoder and its output (R120 to R123), its inverse (R129,
R130), the one-byte unstuffer (R125 to R128, R131), and an escape split between two deliveries (R126, R235). -/

open Sys2Proof.Claims

namespace Sys2Proof.Machine

variable {cfg : Config} {s : State}

/-! Stuffing. -/

theorem stuffTail_eq_flatMap (p : Bytes) : stuffTail cfg p = p.flatMap (stuffByte cfg) := by
  induction p with
  | nil => rfl
  | cons b bs ih => rw [stuffTail_cons, List.flatMap_cons, ih]

theorem exec_stuff (b : Bytes) (s : State) : exec (.stuff b) s = .next (s.drive (.wire (stuff s.cfg b))) := rfl

/-- Settles O20: the bytes after the first are escaped one by one. -/
theorem stuffEscapesAfterFirstByte : Obligations.StuffEscapesAfterFirstByte := by
  refine fun s => ⟨exec_stuff [] s, fun h rest => ?_⟩
  rw [exec_stuff, stuff_cons, stuffTail_eq_flatMap]
  rfl

/-- In what the stuffer's loop emits a `FESC` stands only in front of `TFEND` or `TFESC` (R121 (b)). -/
theorem fesc_followed_stuffTail (h : cfg.distinct) (p : Bytes) {i : Nat}
    (hi : (stuffTail cfg p)[i]? = some cfg.fesc) :
    (stuffTail cfg p)[i + 1]? = some cfg.tfend ∨ (stuffTail cfg p)[i + 1]? = some cfg.tfesc := by
  obtain ⟨-, -, -, htfend, htfesc, -⟩ := h
  induction p generalizing i with
  | nil => simp at hi
  | cons b bs ih =>
    rw [stuffTail_cons] at hi ⊢
    unfold stuffByte at hi ⊢
    split_ifs at hi ⊢ with hfend hfesc
    · match i with
      | 0 => exact .inl rfl
      | 1 => exact absurd (Option.some.inj hi) htfend.symm
      | _ + 2 => exact ih hi
    · match i with
      | 0 => exact .inr rfl
      | 1 => exact absurd (Option.some.inj hi) htfesc.symm
      | _ + 2 => exact ih hi
    · match i with
      | 0 => exact absurd (Option.some.inj hi) hfesc
      | _ + 1 => exact ih hi

/-- Settles O21: the bytes after the first are what the loop emits. -/
theorem stuffedOutputInvariants : Obligations.StuffedOutputInvariants := by
  intro cfg s hd
  cases s with
  | nil => simp
  | cons b bs =>
    refine ⟨fun i hi hfend => ?_, fun i hi hfesc => ?_, rfl⟩
    · obtain ⟨j, rfl⟩ := Nat.exists_eq_add_of_le' hi
      exact fend_not_mem_stuffTail hd bs (List.mem_of_getElem? hfend)
    · obtain ⟨j, rfl⟩ := Nat.exists_eq_add_of_le' hi
      exact fesc_followed_stuffTail hd bs hfesc

theorem length_stuffByte (b : Byte) :
    (stuffByte cfg b).length = 1 + if b == cfg.fend || b == cfg.fesc then 1 else 0 := by
  unfold stuffByte
  split_ifs <;> simp_all

theorem length_stuffTail (p : Bytes) :
    (stuffTail cfg p).length = p.length + p.countP fun b => b == cfg.fend || b == cfg.fesc := by
  induction p with
  | nil => rfl
  | cons b bs ih =>
    rw [stuffTail_cons, List.length_append, length_stuffByte, ih, List.length_cons, List.countP_cons]
    omega

/-- Settles O22: each reserved byte after the first costs one more, and there are at most as many as bytes after it. -/
theorem stuffedLength : Obligations.StuffedLength := by
  intro cfg s _
  cases s with
  | nil => simp
  | cons b bs =>
    have hcount := bs.countP_le_length (p := fun b => b == cfg.fend || b == cfg.fesc)
    simp only [stuff_cons, List.length_cons, length_stuffTail, List.tail_cons]
    omega

/-- The loop of `unstuff` undoes the stuffer's loop (R129, R130). -/
theorem unstuffTail_stuffTail (h : cfg.distinct) (p : Bytes) : unstuffTail cfg (stuffTail cfg p) = some p := by
  induction p with
  | nil => rfl
  | cons b bs ih => rw [stuffTail_cons, unstuffTail_stuffByte h, ih, Option.map_some]

/-- Settles O23: byte 0 is copied both ways, and the loops are inverse on the rest. -/
theorem unstuffInvertsStuff : Obligations.UnstuffInvertsStuff := by
  intro cfg b hd
  cases b with
  | nil => rfl
  | cons b bs => rw [stuff_cons, unstuff, unstuffTail_stuffTail hd, Option.map_some]

/-! Unstuffing one token. -/

theorem unstuff1_escFend (r : Bytes) : unstuff1 cfg (cfg.fesc :: cfg.tfend :: r) = .got cfg.fend 2 := by
  simp [unstuff1]

theorem unstuff1_escFesc (h : cfg.distinct) (r : Bytes) :
    unstuff1 cfg (cfg.fesc :: cfg.tfesc :: r) = .got cfg.fesc 2 := by
  obtain ⟨-, -, -, -, -, hne⟩ := h
  simp [unstuff1, hne.symm]

theorem unstuff1_escBad {x : Byte} (htfend : x ≠ cfg.tfend) (htfesc : x ≠ cfg.tfesc) (r : Bytes) :
    unstuff1 cfg (cfg.fesc :: x :: r) = .bad 1 := by
  simp [unstuff1, htfend, htfesc]

/-- `UNSTUFF1` drives what the unstuffer answers, and changes nothing else (R128). -/
theorem exec_unstuff1 {buf : Bytes} {u : Unstuffed} (h : unstuff1 s.cfg buf = u) :
    exec (.unstuff1 buf) s = .next (s.drive (unstuffedOutput u)) := by
  rw [← h]
  rfl

/-- Settles O24, by the unstuffer's answer on each shape of buffer. -/
theorem unstuff1ReadsOneToken : Obligations.Unstuff1ReadsOneToken := fun _ hd =>
  ⟨exec_unstuff1 (unstuff1_eq_need.2 (.inl rfl)), exec_unstuff1 (unstuff1_eq_need.2 (.inr rfl)),
    fun r => exec_unstuff1 (unstuff1_escFend r), fun r => exec_unstuff1 (unstuff1_escFesc hd r),
    fun _ r htfend htfesc => exec_unstuff1 (unstuff1_escBad htfend htfesc r),
    fun _ r hb => exec_unstuff1 (isToken_literal hb r)⟩

/-- The output `kind` is 0 for `NEED` alone (R128). -/
theorem kind_eq_zero_iff {u : Unstuffed} {k : BitVec 2} {b : Byte} {n : Nat}
    (h : unstuffedOutput u = .unstuffed k b n) : k = 0 ↔ u = .need := by
  cases u with
  | need | got | bad => cases h; simp

/-- Settles O25: more input keeps every answer but `NEED`, and the output `kind` tells which it was. -/
theorem unstuff1PrefixStable : Obligations.Unstuff1PrefixStable := by
  intro s t buf x k b n hexec hout
  obtain rfl := Host.Outcome.next.inj hexec
  have hkind : k = 0 ↔ unstuff1 s.cfg buf = .need := kind_eq_zero_iff hout
  exact ⟨fun hk => exec_unstuff1 (unstuff1_append (mt hkind.2 hk) x), hkind.trans unstuff1_eq_need⟩

/-! An escape split between two deliveries. -/

/-- A byte delivered behind a buffered `FESC` has the effect of both delivered together with nothing buffered. -/
theorem exec_wLit_of_fesc_buffered {i : Instr} {b : Byte} (hb : s.decBuf = [s.cfg.fesc])
    (ha : s.decPhase.active = true) (hi : i.wireBytes s.cfg = some [s.cfg.fesc, b]) :
    exec (.wLit b) s = exec i { s with decBuf := [] } := by
  rw [exec_input_active rfl ha, exec_input_nil (s := { s with decBuf := [] }) hi ha rfl, State.appendBuf, hb]
  rfl

/-- Settles O47: the joined bytes are the token `W.ESC_FEND`, `W.ESC_FESC` or `W.ESC_BAD`, arriving in `CMD`. -/
theorem splitEscapeJoins : Obligations.SplitEscapeJoins := by
  intro s b hd hp hb
  have ha : s.decPhase.active = true := by simp [hp]
  split_ifs with htfend htfesc hfend
  · subst htfend
    rw [exec_wLit_of_fesc_buffered (i := .wEscFend) hb ha rfl]
    exact exec_token_cmd rfl rfl unstuff1_escFend hp
  · subst htfesc
    rw [exec_wLit_of_fesc_buffered (i := .wEscFesc) hb ha rfl]
    exact exec_token_cmd rfl rfl (unstuff1_escFesc hd) hp
  all_goals
    rw [exec_wLit_of_fesc_buffered (i := .wEscBad b) hb ha rfl,
      exec_wEscBad_inFrame (s := { s with decBuf := [] }) rfl (by simp [hp]) (by simp [hp]) htfend htfesc]
    simp [afterBadEscape, hb, hfend]

end Sys2Proof.Machine
end

section
/-! PROOFS. The family 42_frame_encoder.md: what `BUILD` assembles and when it refuses (R140 to R148), and the shape of
what it outputs (R149). -/

namespace Sys2Proof.Machine

variable {cfg : Config}

/-! The operation. -/

/-- A payload is refused when it is over a bounded `ENC_MAX_PAYLOAD` (R147, R148). -/
theorem overMax_eq_true_iff {p : Bytes} :
    overMax cfg p = true ↔ ∃ m, cfg.encMaxPayload = some m ∧ m < p.length := by
  cases hmax : cfg.encMaxPayload <;> simp [overMax, hmax]

theorem overMax_eq_false_iff {p : Bytes} :
    overMax cfg p = false ↔ ∀ m, cfg.encMaxPayload = some m → p.length ≤ m := by
  simp [← Bool.not_eq_true, overMax_eq_true_iff]

/-- The length byte is the payload length modulo 256 (R78, R143). -/
theorem lenByte_eq_ofNat_mod (p : Bytes) : lenByte p = BitVec.ofNat 8 (p.length % 256) :=
  BitVec.eq_of_toNat_eq (by simp [lenByte])

/-- Settles O26: the frame the statement writes out is `frameBody`, and the fold over it is its checksum. -/
theorem buildAssemblesStuffedFrame : Obligations.BuildAssemblesStuffedFrame := by
  intro s cmd addr p f
  constructor
  · intro hmax hf
    have hbody : f = frameBody s.cfg cmd addr p := by
      rw [hf, frameBody, lenByte_eq_ofNat_mod, List.append_assoc _ [_] [_]]
      rfl
    rw [exec_build_of_not_overMax (overMax_eq_false_iff.2 hmax), hbody]
    rfl
  · exact fun m hm hlt => exec_build_of_overMax (overMax_eq_true_iff.2 ⟨m, hm, hlt⟩) cmd addr

/-! The frame under the stuffing. -/

/-- Masking a byte keeps its low seven bits (R75, R78). -/
theorem mask7_eq_byteOf7_low7 (v : Byte) : mask7 v = byteOf7 (low7 v) := by
  have hmsb : (mask7 v).msb = false := by
    rw [mask7, BitVec.msb_and, show (0x7F : Byte).msb = false from rfl, Bool.and_false]
  have hlow : low7 (mask7 v) = low7 v := by
    rw [mask7, low7, BitVec.setWidth_and]
    exact BitVec.and_allOnes
  rw [← hlow, byteOf7_low7 hmsb]

theorem byteOf7_eq_zero_iff {v : BitVec 7} : byteOf7 v = 0 ↔ v = 0 :=
  ⟨fun h => by rw [← low7_byteOf7 v, h]; rfl, fun h => by rw [h]; rfl⟩

/-- With its checksum the assembled frame is that of format `F.UNADDR`, or of `F.ADDR` when the masked address is not 0
(R75, R76, R142). -/
theorem withCrc_frameBody (cmd addr : Byte) (p : Bytes) :
    withCrc cfg (frameBody cfg cmd addr p) =
      if low7 addr = 0 then encode cfg (.fUnaddr (low7 cmd) p) else encode cfg (.fAddr (low7 addr) (low7 cmd) p) := by
  simp only [frameBody, mask7_eq_byteOf7_low7, byteOf7_eq_zero_iff]
  split_ifs <;> rfl

/-- A checksum appended to what it covers leaves the residue `T[0]` (R105 (c)). -/
theorem crc8_withCrc (f : Bytes) : crc8 cfg (withCrc cfg f) = tableAt cfg 0 := by
  obtain ⟨hlaws, -, -⟩ := checksumLaws
  obtain ⟨-, -, hresidue⟩ := hlaws cfg f []
  exact hresidue

/-- A built frame is `FEND`, copied, and then what the stuffer's loop emits (R120, R140). -/
theorem exists_build_eq_cons (cmd addr : Byte) (p : Bytes) :
    ∃ rest, build cfg cmd addr p = cfg.fend :: stuffTail cfg rest :=
  ⟨_, rfl⟩

/-- Settles O27: `FEND` is not `FESC`, the rest is the stuffer's, and unstuffing undoes it. -/
theorem builtFrameShape : Obligations.BuiltFrameShape := by
  intro cfg cmd addr p hd w f
  have hf : withCrc cfg (frameBody cfg cmd addr p) = f := withCrc_frameBody cmd addr p
  obtain ⟨rest, hw⟩ : ∃ rest, w = cfg.fend :: stuffTail cfg rest := exists_build_eq_cons cmd addr p
  have hunstuff : unstuff cfg w = some f := hf ▸ unstuffInvertsStuff cfg _ hd
  have hresidue : crc8 cfg f = tableAt cfg 0 := hf ▸ crc8_withCrc _
  rw [hw] at hunstuff ⊢
  refine ⟨rfl, fend_not_mem_stuffTail hd rest, fun i hi => ?_, hunstuff, hresidue⟩
  cases i with
  | zero => exact absurd (Option.some.inj hi) hd.1
  | succ i => exact fesc_followed_stuffTail hd rest hi

end Sys2Proof.Machine
end

section
/-! PROOFS. The family 43_frame_decoder.md, operations and transitions: `DEC_START`, `DEC_READ` and `DEC_TICK` (R161,
R173 to R175), the transitions of each phase and how many can come (R164 to R172, R180), `DEC_FEED` in any chunks (R162,
R181), what an inactive decoder keeps (R176, R189), what `SEEK_DELIM` discards (R183), and the deadline (R186). -/

open Sys2Proof.Claims

namespace Sys2Proof.Machine

variable {s t : State}

/-! Starting and reading. -/

theorem exec_decStart (s : State) : exec .decStart s = .next (s.start.drive .nothing) := rfl

/-- Settles O28: `start` writes the registers the statement lists. -/
theorem decStartResetsDecoder : Obligations.DecStartResetsDecoder := exec_decStart

/-- Settles O38: the two encodings, phase by phase and status by status. -/
theorem readReportsStatus : Obligations.ReadReportsStatus := by
  refine fun s => ⟨s.decPhase.code, s.resKind.code, rfl, ?_, ?_⟩
  · cases s.decPhase <;> simp [Phase.code]
  · cases s.resKind <;> simp [ResKind.code]

/-! One tick. -/

theorem exec_decTick (s : State) : exec .decTick s = .next ((tick s).drive .nothing) := rfl

theorem tick_of_inactive (h : s.decPhase.active = false) : tick s = s := by
  simp [tick, h]

theorem tick_of_lt (ha : s.decPhase.active = true) (h : s.decElapsed + 1 < s.cfg.deadlineTicks) :
    tick s = { s with decElapsed := s.decElapsed + 1 } := by
  simp [tick, ha, h.not_ge]

theorem tick_of_ge (ha : s.decPhase.active = true) (h : s.cfg.deadlineTicks ≤ s.decElapsed + 1) :
    tick s = ({ s with decElapsed := s.decElapsed + 1 } : State).timeout := by
  simp [tick, ha, h]

/-- Settles O37: each clause is one case of `tick`. -/
theorem tickCountsToDeadline : Obligations.TickCountsToDeadline := by
  intro s
  rw [exec_decTick]
  refine ⟨fun h => ?_, fun ha h => ?_, fun ha h => ?_⟩
  · rw [tick_of_inactive h]; rfl
  · rw [tick_of_lt ha h]; rfl
  · rw [tick_of_ge ha h]; rfl

/-! One transition. -/

/-- Settles O31: the search splits the buffer at its first `FEND`. -/
theorem seekTransition : Obligations.SeekTransition := by
  intro s hp
  refine ⟨fun pre rest hb hn => ?_, fun hn => decStep_eq_none.2 (.inr (.inl ⟨hp, hn⟩))⟩
  simp only [decStep, hp, stepSeek, afterFirst_eq_some.2 ⟨pre, hb, hn⟩]

section Token

variable {n : Nat} {b : Byte}

theorem decStep_cmd (hp : s.decPhase = .cmd) : decStep s = stepToken s takeCmd := by
  simp only [decStep, hp]

theorem decStep_len (hp : s.decPhase = .len) : decStep s = stepToken s takeLen := by
  simp only [decStep, hp]

theorem decStep_data (hp : s.decPhase = .data) (hl : s.decPayload.length ≠ s.decLen.toNat) :
    decStep s = stepToken s takeData := by
  simp only [decStep, hp, if_neg hl]

theorem decStep_crc (hp : s.decPhase = .crc) : decStep s = stepToken s takeCrc := by
  simp only [decStep, hp]

theorem stepToken_of_got {onByte : State → Byte → State} (h : unstuff1 s.cfg s.decBuf = .got b n) :
    stepToken s onByte = some (onByte (s.dropBuf n) b) := by
  simp only [stepToken, h]

/-- Where a token is to be read, the decoder waits as the unstuffer does (R126). -/
theorem decStep_of_need (hframe : s.decPhase.inFrame = true)
    (hdata : s.decPhase = .data → s.decPayload.length ≠ s.decLen.toNat) (h : unstuff1 s.cfg s.decBuf = .need) :
    decStep s = none :=
  decStep_eq_none.2 (.inr (.inr ⟨hframe, hdata, unstuff1_eq_need.1 h⟩))

/-- Where a token is to be read, a malformed escape is reported with its follower (R171, R172). -/
theorem decStep_of_bad (hframe : s.decPhase.inFrame = true)
    (hdata : s.decPhase = .data → s.decPayload.length ≠ s.decLen.toNat) (h : unstuff1 s.cfg s.decBuf = .bad n) :
    ∃ x, s.decBuf[1]? = some x ∧ decStep s = some (afterBadEscape s x) := by
  obtain ⟨rfl, x, r, hb, -, -⟩ := unstuff1_eq_bad h
  have hfollower : s.decBuf.getD 1 0 = x := by simp [hb]
  have htoken (onByte) : stepToken s onByte = some (afterBadEscape s x) := by
    simp only [stepToken, h, ← hfollower]
    rfl
  refine ⟨x, by simp [hb], ?_⟩
  cases hp : s.decPhase with
  | cmd => rw [decStep_cmd hp, htoken]
  | len => rw [decStep_len hp, htoken]
  | data => rw [decStep_data hp (hdata hp), htoken]
  | crc => rw [decStep_crc hp, htoken]
  | idle | seekDelim | doneOk | doneTimeout => simp [hp] at hframe

end Token

/-- Settles O32: a complete payload needs no token, and otherwise the unstuffer's answer decides. -/
theorem fieldTransitions : Obligations.FieldTransitions := by
  intro s hphase
  have hframe : s.decPhase.inFrame = true := by
    obtain hp | hp | hp := hphase <;> simp [hp]
  refine ⟨fun hp hl => by simp only [decStep, hp, if_pos hl], fun hdata =>
    ⟨decStep_of_need hframe hdata, fun _ => decStep_of_bad hframe hdata, fun b n hg => ?_⟩⟩
  obtain hp | hp | hp := hphase
  · rw [if_pos hp, decStep_cmd hp, stepToken_of_got hg]
    rfl
  · rw [if_neg (by simp [hp]), if_pos hp, decStep_len hp, stepToken_of_got hg]
    rfl
  · rw [if_neg (by simp [hp]), if_neg (by simp [hp]), decStep_data hp (hdata hp), stepToken_of_got hg]
    rfl

/-- Settles O33: a checksum that is read is compared with the one over the frame in progress. -/
theorem checksumTransition : Obligations.ChecksumTransition := by
  intro s hp
  have hframe : s.decPhase.inFrame = true := by simp [hp]
  have hdata : s.decPhase = .data → s.decPayload.length ≠ s.decLen.toNat := by simp [hp]
  refine ⟨decStep_of_need hframe hdata, fun _ => decStep_of_bad hframe hdata, fun r n e hg he => ?_⟩
  have hexpected : (s.dropBuf n).expectedCrc = e := he.symm
  rw [decStep_crc hp, stepToken_of_got hg, takeCrc, hexpected]
  split_ifs
  · rfl
  · rw [State.crcMismatch, hexpected]
    rfl

/-- Settles O34: the follower reported is the byte after the `FESC`. -/
theorem malformedEscapeResynchronises : Obligations.MalformedEscapeResynchronises := by
  intro s x r hphase hb htfend htfesc
  have hframe : s.decPhase.inFrame = true := by
    obtain hp | hp | ⟨hp, -⟩ | hp := hphase <;> simp [hp]
  have hdata : s.decPhase = .data → s.decPayload.length ≠ s.decLen.toNat := by
    obtain hp | hp | ⟨-, hl⟩ | hp := hphase
    case inr.inr.inl => exact fun _ => hl
    all_goals simp [hp]
  obtain ⟨y, hy, hstep⟩ := decStep_of_bad hframe hdata (hb ▸ unstuff1_escBad htfend htfesc r)
  obtain rfl : x = y := by simpa [hb] using hy
  rw [hstep, afterBadEscape, hb]
  rfl

/-! Transitions one after another. -/

theorem reaches_zero : Reaches 0 s t ↔ s = t := by
  simp [Reaches]

theorem reaches_succ {n : Nat} : Reaches (n + 1) s t ↔ ∃ u, decStep s = some u ∧ Reaches n u t := by
  unfold Reaches
  rw [Function.iterate_succ_apply, Option.bind_some]
  cases hs : decStep s with
  | none =>
    have hnone : (fun o : Option State => o.bind decStep)^[n] none = none := Function.iterate_fixed rfl n
    simp [hnone]
  | some u => simp

theorem exists_reaches_run (s : State) : ∃ n, Reaches n s (run s) := by
  refine run_induct (P := fun s r => ∃ n, Reaches n s r) (fun s _ => ⟨0, reaches_zero.2 rfl⟩) ?_ s
  rintro s t r h ⟨n, hn⟩
  exact ⟨n + 1, reaches_succ.2 ⟨t, h, hn⟩⟩

theorem le_stepsLeft_of_reaches {n : Nat} (h : Reaches n s t) : n ≤ stepsLeft s := by
  induction n generalizing s with
  | zero => exact Nat.zero_le _
  | succ n ih =>
    obtain ⟨u, hu, hrest⟩ := reaches_succ.1 h
    exact (ih hrest).trans_lt (stepsLeft_decStep hu)

/-- Settles O35: each transition leaves fewer to come, and `stepsLeft` is at most the bound. -/
theorem transitionsBounded : Obligations.TransitionsBounded :=
  fun s _ _ h => (le_stepsLeft_of_reaches h).trans (stepsLeft_le s)

/-! Feeding. -/

theorem exec_decFeed (s : State) (c : Bytes) : exec (.decFeed c) s = .next ((feed s c).drive .nothing) := rfl

/-- Settles O30: `run` is a chain of transitions after which none is enabled. -/
theorem feedRunsToQuiescence : Obligations.FeedRunsToQuiescence := by
  intro s c
  rw [exec_decFeed]
  refine ⟨fun ha => ?_, fun h => ?_⟩
  · obtain ⟨n, hn⟩ := exists_reaches_run (s.appendBuf c)
    exact ⟨n, _, hn, decStep_run _, by rw [feed_of_active ha]; rfl⟩
  · rw [feed_of_inactive h]; rfl

theorem feed_drive (s : State) (o : Output) (c : Bytes) : feed (s.drive o) c = (feed s c).drive o := by
  obtain ⟨-, hacc, helapsed, -, hpending⟩ := feed_frame s c
  refine (feed_withOthers s.crcAcc s.decElapsed o s.pending s c).trans ?_
  rw [← hacc, ← helapsed, ← hpending]
  rfl

/-- Feeding twice is feeding once (R181): `run` stops where more input takes it up again. -/
theorem feed_feed (s : State) (c₁ c₂ : Bytes) : feed (feed s c₁) c₂ = feed s (c₁ ++ c₂) := by
  cases h : s.decPhase.active with
  | false => simp only [feed_of_inactive h]
  | true =>
    rw [feed_of_active h, feed_of_active h, feed_run (s := s.appendBuf c₁) h, State.appendBuf_appendBuf]

theorem exec_decFeed_append (s : State) (c₁ c₂ : Bytes) :
    exec (.decFeed c₂) ((feed s c₁).drive .nothing) = exec (.decFeed (c₁ ++ c₂)) s := by
  rw [exec_decFeed, exec_decFeed, feed_drive, feed_feed, State.drive_drive]

/-- Settles O36: the output port is not read, and the decoder goes on where the first chunk left it. -/
theorem chunkingInvariance : Obligations.ChunkingInvariance := by
  intro s c₁ c₂
  rw [execAll_cons_next (exec_decFeed s c₁), execAll_singleton, exec_decFeed_append]

/-- Any number of chunks are fed as one (R181). -/
theorem execAll_decFeed (s : State) (c : Bytes) (cs : List Bytes) :
    execAll ((c :: cs).map .decFeed) s = exec (.decFeed (c :: cs).flatten) s := by
  induction cs generalizing c s with
  | nil => simpa using execAll_singleton (.decFeed c) s
  | cons c' cs ih =>
    rw [List.map_cons, execAll_cons_next (exec_decFeed s c), ih, exec_decFeed_append, List.flatten_cons (l := c)]

/-! Inactive phases, and the result. -/

/-- In an inactive phase no instruction but `DEC_START` changes the phase or the result (R176, R189). -/
theorem exec_inactive {i : Instr} (ha : s.decPhase.active = false) (h : exec i s = .next t) (hi : i ≠ .decStart) :
    t.decPhase = s.decPhase ∧ t.resKind = s.resKind ∧ t.resPayload = s.resPayload := by
  obtain ⟨w, -, rfl⟩ | ⟨hstart, -⟩ | ⟨-, rfl⟩ | ⟨-, a, o, rfl⟩ | ⟨o, rfl⟩ := exec_next_units h
  · rw [feed_of_inactive ha]; exact ⟨rfl, rfl, rfl⟩
  · exact absurd hstart hi
  · rw [tick_of_inactive ha]; exact ⟨rfl, rfl, rfl⟩
  · exact ⟨rfl, rfl, rfl⟩
  · exact ⟨rfl, rfl, rfl⟩

/-- Settles O29: an inactive phase discards input and ticks. -/
theorem inactiveDecoderDiscards : Obligations.InactiveDecoderDiscards := by
  intro s hphase
  have ha : s.decPhase.active = false := by
    obtain hp | hp | hp := hphase <;> simp [hp]
  refine ⟨fun c => ?_, ?_, fun i t h hi => (exec_inactive ha h hi).1⟩
  · rw [exec_decFeed, feed_of_inactive ha]; rfl
  · rw [exec_decTick, tick_of_inactive ha]; rfl

/-- The result is that of `s`, or that of a frame just accepted (R169). -/
def ResultKeptOrAccepted (s t : State) : Prop :=
  (t.resKind = s.resKind ∧ t.resPayload = s.resPayload) ∨
    (t.decPhase = .doneOk ∧ t.resKind = .ok ∧ t.resPayload = t.decPayload)

/-- A transition writes the result only by accepting (R169, R189). -/
theorem decStep_resultKeptOrAccepted (h : decStep s = some t) : ResultKeptOrAccepted s t := by
  obtain ⟨_, _, -, -, -, rfl⟩ | ⟨-, -, _, _, -, -, -, rfl⟩ | ⟨-, -, rfl⟩ |
    ⟨b, n, -, ⟨-, rfl⟩ | ⟨-, rfl⟩ | ⟨-, -, rfl⟩ | ⟨-, -, rfl⟩ | ⟨-, -, rfl⟩⟩ := decStep_eq_some h
  case inr.inr.inr.inr.inr.inr.inl => exact .inr ⟨rfl, rfl, rfl⟩
  all_goals exact .inl ⟨rfl, rfl⟩

theorem run_resultKeptOrAccepted (s : State) : ResultKeptOrAccepted s (run s) := by
  refine run_preserves (P := ResultKeptOrAccepted s) (fun u t hu h => ?_) (.inl ⟨rfl, rfl⟩)
  obtain ⟨hkind, hpayload⟩ | ⟨hp, -, -⟩ := hu
  · rw [ResultKeptOrAccepted, ← hkind, ← hpayload]
    exact decStep_resultKeptOrAccepted h
  · have hactive := active_of_decStep h
    simp [hp] at hactive

theorem feed_resultKeptOrAccepted (s : State) (c : Bytes) : ResultKeptOrAccepted s (feed s c) := by
  cases h : s.decPhase.active with
  | false => rw [feed_of_inactive h]; exact .inl ⟨rfl, rfl⟩
  | true => rw [feed_of_active h]; exact run_resultKeptOrAccepted (s.appendBuf c)

/-- A tick writes the result only by timing out (R174, R189). -/
theorem tick_result (s : State) :
    ((tick s).resKind = s.resKind ∧ (tick s).resPayload = s.resPayload) ∨
      ((tick s).decPhase = .doneTimeout ∧ (tick s).resKind = .timeout ∧ (tick s).resPayload = []) := by
  obtain ⟨-, ht⟩ | ⟨-, -, ht⟩ | ⟨-, -, ht⟩ := tick_cases s <;> rw [ht]
  · exact .inl ⟨rfl, rfl⟩
  · exact .inl ⟨rfl, rfl⟩
  · exact .inr ⟨rfl, rfl, rfl⟩

/-- Settles O43: a result that changed was written by accepting or by timing out. -/
theorem resultKeptUntilStart : Obligations.ResultKeptUntilStart := by
  intro i s t h hi
  refine ⟨fun ha => (exec_inactive ha h hi).2, fun hchanged => ?_⟩
  rw [← not_and_or] at hchanged
  obtain ⟨w, hw, rfl⟩ | ⟨hstart, -⟩ | ⟨htick, rfl⟩ | ⟨-, a, o, rfl⟩ | ⟨o, rfl⟩ := exec_next_units h
  · exact .inl ⟨⟨w, hw⟩, (feed_resultKeptOrAccepted s w).resolve_left hchanged⟩
  · exact absurd hstart hi
  · exact .inr ⟨htick, (tick_result s).resolve_left hchanged⟩
  · exact absurd ⟨rfl, rfl⟩ hchanged
  · exact absurd ⟨rfl, rfl⟩ hchanged

/-! Input kept in `SEEK_DELIM`. -/

/-- Two states that differ at most in the bytes kept in `SEEK_DELIM` without a `FEND` (R183). -/
def SeekAlike (s t : State) : Prop :=
  t = s ∨ (s.decPhase = .seekDelim ∧ s.cfg.fend ∉ s.decBuf ∧ ∃ b, s.cfg.fend ∉ b ∧ t = { s with decBuf := b })

theorem SeekAlike.observe_eq (h : SeekAlike s t) : s.observe = t.observe := by
  obtain rfl | ⟨-, -, b, -, rfl⟩ := h <;> rfl

/-- In `SEEK_DELIM` what is fed up to the next `FEND` is all discarded there, with what was kept before it (R164). -/
theorem feed_seek_fend {pre rest : Bytes} (hp : s.decPhase = .seekDelim) (hb : s.cfg.fend ∉ s.decBuf)
    (hn : s.cfg.fend ∉ pre) :
    feed s (pre ++ s.cfg.fend :: rest) = run { s with decBuf := rest, decPhase := .cmd } := by
  rw [feed_of_active (by simp [hp])]
  exact run_seek (s := s.appendBuf _) (pre := s.decBuf ++ pre) hp (by simp) (by simp [hb, hn])

/-- In `SEEK_DELIM` what is fed without a `FEND` is kept (R164). -/
theorem feed_seek_wait {w : Bytes} (hp : s.decPhase = .seekDelim) (hb : s.cfg.fend ∉ s.decBuf)
    (hn : s.cfg.fend ∉ w) : feed s w = s.appendBuf w := by
  rw [feed_of_active (by simp [hp])]
  exact run_seek_wait (s := s.appendBuf w) hp (by simp [hb, hn])

theorem SeekAlike.feed (h : SeekAlike s t) (w : Bytes) : SeekAlike (feed s w) (feed t w) := by
  obtain rfl | ⟨hp, hs, b, hb, rfl⟩ := h
  · exact .inl rfl
  cases hw : afterFirst s.cfg.fend w with
  | some rest =>
    obtain ⟨pre, rfl, hn⟩ := afterFirst_eq_some.1 hw
    exact .inl ((feed_seek_fend (s := { s with decBuf := b }) hp hb hn).trans (feed_seek_fend hp hs hn).symm)
  | none =>
    have hn := afterFirst_eq_none.1 hw
    rw [feed_seek_wait hp hs hn, feed_seek_wait (s := { s with decBuf := b }) hp hb hn]
    exact .inr ⟨hp, by simp [hs, hn], b ++ w, by simp [hb, hn], rfl⟩

theorem SeekAlike.drive (h : SeekAlike s t) (o : Output) : SeekAlike (s.drive o) (t.drive o) := by
  obtain rfl | ⟨hp, hs, b, hb, rfl⟩ := h
  · exact .inl rfl
  · exact .inr ⟨hp, hs, b, hb, rfl⟩

theorem SeekAlike.outputAcc (h : SeekAlike s t) (a : Byte) : SeekAlike (s.outputAcc a) (t.outputAcc a) := by
  obtain rfl | ⟨hp, hs, b, hb, rfl⟩ := h
  · exact .inl rfl
  · exact .inr ⟨hp, hs, b, hb, rfl⟩

/-- A tick counts in both, and a timeout clears the buffer (R174). -/
theorem SeekAlike.tick (h : SeekAlike s t) : SeekAlike (tick s) (tick t) := by
  obtain rfl | ⟨hp, hs, b, hb, rfl⟩ := h
  · exact .inl rfl
  have ha : s.decPhase.active = true := by simp [hp]
  obtain hlt | hge := Nat.lt_or_ge (s.decElapsed + 1) s.cfg.deadlineTicks
  · rw [tick_of_lt ha hlt, tick_of_lt (s := { s with decBuf := b }) ha hlt]
    exact .inr ⟨hp, hs, b, hb, rfl⟩
  · rw [tick_of_ge ha hge, tick_of_ge (s := { s with decBuf := b }) ha hge]
    exact .inl rfl

/-- An instruction stops in both or in neither, and keeps the two states alike. -/
theorem SeekAlike.exec (h : SeekAlike s t) (i : Instr) :
    exec i t = exec i s ∨ ∃ s' t', exec i s = .next s' ∧ exec i t = .next t' ∧ SeekAlike s' t' := by
  have halike := h
  obtain rfl | ⟨hp, hs, b, hb, rfl⟩ := h
  · exact .inl rfl
  cases i with
  | crcInit => exact .inr ⟨_, _, rfl, rfl, halike.outputAcc s.cfg.seed⟩
  | crcUpdate d =>
    simp only [Machine.exec, execCrcUpdate]
    cases s.crcAcc with
    | none => exact .inl rfl
    | some a => exact .inr ⟨_, _, rfl, rfl, halike.outputAcc _⟩
  | build cmd addr p =>
    simp only [Machine.exec, execBuild]
    split_ifs
    · exact .inl rfl
    · exact .inr ⟨_, _, rfl, rfl, halike.drive _⟩
  | stuff | unstuff1 | decRead => exact .inr ⟨_, _, rfl, rfl, halike.drive _⟩
  | decStart => exact .inl rfl
  | decTick => exact .inr ⟨_, _, rfl, rfl, halike.tick.drive _⟩
  | decFeed | wFend | wEscFend | wEscFesc | wEscBad | wEscPart | wLit | fUnaddr | fAddr =>
    exact .inr ⟨_, _, exec_input rfl, exec_input rfl, (halike.feed _).drive _⟩

theorem sameObserved_refl (o : Outcome) : SameObserved o o := by
  cases o <;> rfl

theorem SeekAlike.execAll (h : SeekAlike s t) (is : List Instr) : SameObserved (execAll is s) (execAll is t) := by
  induction is generalizing s t with
  | nil => exact h.observe_eq
  | cons i is ih =>
    obtain heq | ⟨s', t', hs, ht, halike⟩ := h.exec i
    · simp only [Machine.execAll, heq]
      exact sameObserved_refl _
    · rw [execAll_cons_next hs, execAll_cons_next ht]
      exact ih halike

/-- Settles O42: the two states differ in the bytes kept in `SEEK_DELIM`, and go on being alike. -/
theorem seekInputDiscardable : Obligations.SeekInputDiscardable :=
  fun _ is hp hn => SeekAlike.execAll (.inr ⟨hp, hn, [], List.not_mem_nil, rfl⟩) is

/-! The deadline. -/

/-- Input leaves an active decoder active, or accepts a frame (R169). -/
theorem feed_phase (ha : s.decPhase.active = true) (c : Bytes) :
    (feed s c).decPhase.active = true ∨ (feed s c).decPhase = .doneOk := by
  rw [feed_of_active ha]
  refine run_preserves (P := fun u => u.decPhase.active = true ∨ u.decPhase = .doneOk) (fun u t _ h => ?_) (.inl ha)
  obtain ⟨h, -, -⟩ | ⟨h, -, -, -⟩ := decStep_result h
  · exact .inl h
  · exact .inr h

/-- What holds `n` ticks into a decode call (R186): it counts every tick while it is active, and only the tick at the
deadline ends it in a timeout. -/
structure TicksIntoCall (n : Nat) (s : State) : Prop where
  started : s.decPhase ≠ .idle
  counted : s.decPhase.active = true → s.decElapsed = n ∧ n < max s.cfg.deadlineTicks 1
  timedOut : s.decPhase = .doneTimeout → max s.cfg.deadlineTicks 1 ≤ n

namespace TicksIntoCall

variable {n : Nat}

theorem start (s : State) : TicksIntoCall 0 s.start := by
  constructor <;> simp

/-- Of the state it reads the phase, the elapsed count and the deadline. -/
theorem congr (h : TicksIntoCall n s) (hp : t.decPhase = s.decPhase) (he : t.decElapsed = s.decElapsed)
    (hcfg : t.cfg = s.cfg) : TicksIntoCall n t := by
  refine ⟨hp ▸ h.started, ?_, ?_⟩
  · rw [hp, he, hcfg]; exact h.counted
  · rw [hp, hcfg]; exact h.timedOut

theorem drive (h : TicksIntoCall n s) (o : Output) : TicksIntoCall n (s.drive o) :=
  h.congr rfl rfl rfl

/-- Input may end the call only in `DONE_OK`. -/
theorem feed (h : TicksIntoCall n s) (c : Bytes) : TicksIntoCall n (feed s c) := by
  cases ha : s.decPhase.active with
  | false => rwa [feed_of_inactive ha]
  | true =>
    obtain ⟨hcfg, -, helapsed, -, -⟩ := feed_frame s c
    obtain hactive | hok := feed_phase ha c
    · refine ⟨fun hp => by simp [hp] at hactive, fun _ => ?_, fun hp => by simp [hp] at hactive⟩
      rw [helapsed, hcfg]
      exact h.counted ha
    · exact ⟨by simp [hok], by simp [hok], by simp [hok]⟩

/-- A tick before the deadline counts, and the tick at it is the one that times out (R173, R174). -/
theorem tick (h : TicksIntoCall n s) : TicksIntoCall (n + 1) (tick s) := by
  obtain ⟨hstarted, hcounted, htimedOut⟩ := h
  obtain ⟨ha, ht⟩ | ⟨ha, hlt, ht⟩ | ⟨ha, hge, ht⟩ := tick_cases s <;> rw [ht]
  · exact ⟨hstarted, fun h => by simp [ha] at h, fun hp => (htimedOut hp).trans n.le_succ⟩
  · obtain ⟨rfl, -⟩ := hcounted ha
    exact ⟨hstarted, fun _ => ⟨rfl, lt_max_of_lt_left hlt⟩, fun (hp : s.decPhase = _) => by simp [hp] at ha⟩
  · obtain ⟨rfl, -⟩ := hcounted ha
    exact ⟨by simp, by simp, fun _ => max_le hge (Nat.le_add_left 1 _)⟩

/-- Between two `DEC_START`s an instruction is a tick, or takes no time. -/
theorem exec (h : TicksIntoCall n s) {i : Instr} (hi : i ≠ .decStart) (hexec : exec i s = .next t) :
    TicksIntoCall (n + if i == .decTick then 1 else 0) t := by
  by_cases htick : i = .decTick
  · subst htick
    obtain rfl := Host.Outcome.next.inj hexec
    exact h.tick.drive .nothing
  · rw [if_neg (by simpa using htick), Nat.add_zero]
    obtain ⟨w, -, rfl⟩ | ⟨hstart, -⟩ | ⟨htick', -⟩ | ⟨-, a, o, rfl⟩ | ⟨o, rfl⟩ := exec_next_units hexec
    · exact (h.feed w).drive .nothing
    · exact absurd hstart hi
    · exact absurd htick' htick
    · exact h.congr rfl rfl rfl
    · exact h.drive o

theorem execAll (h : TicksIntoCall n s) {is : List Instr} (his : ∀ i ∈ is, i ≠ .decStart)
    (hexec : execAll is s = .next t) : TicksIntoCall (n + is.count .decTick) t := by
  induction is generalizing n s with
  | nil => cases hexec; exact h
  | cons i is ih =>
    obtain ⟨u, hi, hrest⟩ := execAll_cons_eq_next hexec
    obtain ⟨histart, hisrest⟩ := List.forall_mem_cons.1 his
    rw [List.count_cons, Nat.add_comm (is.count _), ← Nat.add_assoc]
    exact ih (h.exec histart hi) hisrest hrest

end TicksIntoCall

/-- Without input and without `DEC_START` only a timeout changes the phase. -/
theorem exec_phase_of_no_input {i : Instr} (hi : i ≠ .decStart) (hw : i.wireBytes s.cfg = none)
    (h : exec i s = .next t) : t.decPhase = s.decPhase ∨ t.decPhase = .doneTimeout := by
  obtain ⟨w, hw', -⟩ | ⟨hstart, -⟩ | ⟨-, rfl⟩ | ⟨-, a, o, rfl⟩ | ⟨o, rfl⟩ := exec_next_units h
  · simp [hw] at hw'
  · exact absurd hstart hi
  · obtain ⟨-, ht⟩ | ⟨-, -, ht⟩ | ⟨-, -, ht⟩ := tick_cases s <;> simp [ht]
  · exact .inl rfl
  · exact .inl rfl

theorem execAll_phase_of_no_input {is : List Instr} (his : ∀ i ∈ is, i ≠ .decStart)
    (hw : ∀ i ∈ is, i.wireBytes s.cfg = none) (h : execAll is s = .next t) :
    t.decPhase = s.decPhase ∨ t.decPhase = .doneTimeout := by
  induction is generalizing s with
  | nil => cases h; exact .inl rfl
  | cons i is ih =>
    obtain ⟨u, hi, hrest⟩ := execAll_cons_eq_next h
    obtain ⟨histart, hisrest⟩ := List.forall_mem_cons.1 his
    obtain ⟨hwi, hwrest⟩ := List.forall_mem_cons.1 hw
    obtain ⟨hcfg, -⟩ := exec_frame hi
    have hlast := ih hisrest (hcfg ▸ hwrest) hrest
    obtain hp | hp := exec_phase_of_no_input histart hwi hi
    · rwa [hp] at hlast
    · exact .inr (by simpa [hp] using hlast)

/-- Settles O39: the ticks since `DEC_START` bound the phase from both sides. -/
theorem deadlineBoundsCall : Obligations.DeadlineBoundsCall := by
  intro s t is his h
  rw [execAll_cons_next (exec_decStart s)] at h
  have hcfg : t.cfg = s.cfg := (execAll_frame h).1
  obtain ⟨hstarted, hcounted, htimedOut⟩ := ((TicksIntoCall.start s).drive .nothing).execAll his h
  rw [hcfg, Nat.zero_add] at hcounted htimedOut
  refine ⟨fun hlt hp => (htimedOut hp).not_gt hlt, fun hge => ?_, fun hw => ?_⟩
  · have hinactive : ¬ t.decPhase.active = true := fun ha => hge.not_gt (hcounted ha).2
    cases hp : t.decPhase <;> simp [hp] at hstarted hinactive ⊢
  · have hphase : t.decPhase = .seekDelim ∨ t.decPhase = .doneTimeout :=
      execAll_phase_of_no_input (s := s.start.drive .nothing) his hw h
    obtain hp | hp := hphase
    · rw [hp, if_pos (hcounted (by simp [hp])).2]
    · rw [hp, if_neg (htimedOut hp).not_gt]

end Sys2Proof.Machine
end

section
/-! PROOFS. The family 43_frame_decoder.md, whole frames: what the decoder makes of a frame it reads (R164 to R170), so
of an unaddressed one (R184), an addressed one (R178), and one with a corrupted byte (R185). -/

open Sys2Proof.Claims

namespace Sys2Proof.Machine

variable {cfg : Config} {s : State}

/-! Tokens, taken apart. -/

theorem AreTokens.exists_cons {w bs : Bytes} {b : Byte} (h : AreTokens cfg w (b :: bs)) :
    ∃ e v, w = e ++ v ∧ IsToken cfg e b ∧ AreTokens cfg v bs := by
  cases h with
  | cons ht hv => exact ⟨_, _, rfl, ht, hv⟩

theorem AreTokens.exists_concat {w bs : Bytes} {b : Byte} (h : AreTokens cfg w (bs ++ [b])) :
    ∃ v e, w = v ++ e ∧ AreTokens cfg v bs ∧ IsToken cfg e b := by
  induction bs generalizing w with
  | nil =>
    obtain ⟨e, v, rfl, ht, hv⟩ := h.exists_cons
    cases hv
    exact ⟨[], e, by simp, .nil, ht⟩
  | cons c cs ih =>
    obtain ⟨e, v, rfl, ht, hv⟩ := h.exists_cons
    obtain ⟨v, e', rfl, hv, ht'⟩ := ih hv
    exact ⟨e ++ v, e', by simp, .cons ht hv, ht'⟩

/-! The verdict on a frame. -/

theorem takeCrc_of_eq {k : Byte} (h : k = s.expectedCrc) : takeCrc s k = s.accept := if_pos h

theorem takeCrc_of_ne {k : Byte} (h : k ≠ s.expectedCrc) : takeCrc s k = s.crcMismatch k := if_neg h

/-- With no `FEND` in the bytes that follow, the verdict is the last transition (R164, R169). -/
theorem run_takeCrc_of_no_fend (hn : s.cfg.fend ∉ s.decBuf) (k : Byte) : run (takeCrc s k) = takeCrc s k := by
  by_cases h : k = s.expectedCrc
  · rw [takeCrc_of_eq h]
    exact run_of_none (decStep_eq_none.2 (.inl rfl))
  · rw [takeCrc_of_ne h]
    exact run_seek_wait rfl hn

/-! A frame read from `SEEK_DELIM`. -/

/-- A state with a frame read up to its checksum, and `r` behind it. -/
def State.atCrc (s : State) (c l : Byte) (p r : Bytes) : State :=
  { s with decPhase := .crc, decBuf := r, decCmd := c, decLen := l, decPayload := p }

theorem State.expectedCrc_atCrc (s : State) (c l : Byte) (p r : Bytes) :
    (s.atCrc c l p r).expectedCrc = crc8 s.cfg ([s.cfg.fend, c, l] ++ p) := rfl

section Frame

variable {i : Instr} {pre w r p body : Bytes} {c l k : Byte}

/-- Tokens that read as command, length, payload and checksum lead to the checksum's verdict. -/
theorem run_frameTokens (hp : s.decPhase = .seekDelim) (hb : s.decBuf = pre ++ s.cfg.fend :: (w ++ r))
    (hn : s.cfg.fend ∉ pre) (hw : AreTokens s.cfg w (c :: l :: (p ++ [k]))) (hl : p.length = l.toNat) :
    run s = run (takeCrc (s.atCrc c l p r) k) := by
  obtain ⟨eCmd, w, rfl, hc, hw⟩ := hw.exists_cons
  obtain ⟨eLen, w, rfl, hlen, hw⟩ := hw.exists_cons
  obtain ⟨w, eCrc, rfl, hpt, hk⟩ := hw.exists_concat
  rw [run_seek hp hb hn]
  exact run_wholeFrame (s := { s with decBuf := _, decPhase := .cmd }) rfl hc hlen hpt hk hl r (by simp)

/-- A stuffed sequence with enough bytes after its length byte: the first of them are the payload, the next one is
compared, and what is left starts no frame. -/
theorem exec_stuffedFrame (hd : s.cfg.distinct) (hp : s.decPhase = .seekDelim) (hn : s.cfg.fend ∉ s.decBuf)
    (hi : i.wireBytes s.cfg = some (s.cfg.fend :: stuffTail s.cfg (c :: l :: body))) (hk : body[l.toNat]? = some k) :
    exec i s = .next ((takeCrc
      (s.atCrc c l (body.take l.toNat) (stuffTail s.cfg (body.drop (l.toNat + 1)))) k).drive .nothing) := by
  obtain ⟨hlt, hget⟩ := List.getElem?_eq_some_iff.1 hk
  have hsplit : c :: l :: body = (c :: l :: (body.take l.toNat ++ [k])) ++ body.drop (l.toNat + 1) := by
    simp [← hget]
  rw [hsplit, stuffTail_append] at hi
  rw [exec_input_active hi (by simp [hp]), run_frameTokens (s := s.appendBuf _) hp rfl hn (areTokens_stuffTail hd _)
    (List.length_take_of_le hlt.le), run_takeCrc_of_no_fend (fend_not_mem_stuffTail hd _)]
  rfl

/-- A stuffed sequence with no byte left for the checksum: all bytes after the length byte are payload. -/
theorem exec_shortFrame (hd : s.cfg.distinct) (hp : s.decPhase = .seekDelim) (hn : s.cfg.fend ∉ s.decBuf)
    (hi : i.wireBytes s.cfg = some (s.cfg.fend :: stuffTail s.cfg (c :: l :: body))) (hl : body.length ≤ l.toNat) :
    exec i s = .next { s with
      decPhase := if body.length = l.toNat then .crc else .data, decBuf := [], decCmd := c, decLen := l,
      decPayload := body, out := .nothing } := by
  have hpayload := run_payload
    (s := { s with decPhase := .data, decBuf := [], decCmd := c, decLen := l, decPayload := [] })
    (areTokens_stuffTail hd body) [] [] rfl (by simpa using hl)
  rw [List.append_nil] at hpayload
  have hcmd := run_takeCmd (s := { s with decBuf := stuffTail s.cfg (c :: l :: body), decPhase := .cmd }) rfl rfl
    (isToken_stuffByte hd c)
  have hlen := run_takeLen (s := { s with decBuf := stuffTail s.cfg (l :: body), decCmd := c, decPhase := .len }) rfl
    rfl (isToken_stuffByte hd l)
  have hread := hcmd.trans (hlen.trans (hpayload.trans (run_data_nil rfl rfl)))
  rw [exec_input_active hi (by simp [hp]), run_seek (s := s.appendBuf _) hp rfl hn]
  exact congrArg (fun u : State => (.next (u.drive .nothing) : Outcome)) hread

end Frame

/-! The two formats on the wire. -/

/-- The bytes of an unaddressed frame after its delimiter (R75). -/
def unaddrTail (cfg : Config) (c : BitVec 7) (p : Bytes) : Bytes :=
  byteOf7 c :: lenByte p :: (p ++ [crc8 cfg ([cfg.fend, byteOf7 c, lenByte p] ++ p)])

theorem stuff_frameUnaddr (cfg : Config) (c : BitVec 7) (p : Bytes) :
    stuff cfg (frameUnaddr cfg c p) = cfg.fend :: stuffTail cfg (unaddrTail cfg c p) := rfl

/-- The bytes of an addressed frame after its delimiter, as the decoder will take them (R76, R178). -/
theorem stuff_frameAddr (cfg : Config) (a c : BitVec 7) (p : Bytes) :
    stuff cfg (frameAddr cfg a c p) =
      cfg.fend :: stuffTail cfg (addrByte (byteOf7 a) :: byteOf7 c ::
        (lenByte p :: p ++ [crc8 cfg ([cfg.fend, addrByte (byteOf7 a), byteOf7 c, lenByte p] ++ p)])) := rfl

theorem toNat_byteOf7 (v : BitVec 7) : (byteOf7 v).toNat = v.toNat := by
  have := v.isLt
  simp only [byteOf7, BitVec.toNat_setWidth]
  omega

/-- A frame built for an address that masks to 0 is an unaddressed one (R140, R141). -/
theorem build_eq_frameUnaddr {addr : Byte} (h : low7 addr = 0) (cmd : Byte) (p : Bytes) :
    build cfg cmd addr p = stuff cfg (frameUnaddr cfg (low7 cmd) p) := by
  rw [build, withCrc_frameBody, if_pos h]
  rfl

/-! An unaddressed frame. -/

/-- The state an unaddressed frame leaves: its payload is the result (R184). -/
def State.decoded (s : State) (c : BitVec 7) (p : Bytes) : State :=
  { s with
    decPhase := .doneOk, decBuf := [], decCmd := byteOf7 c, decLen := lenByte p, decPayload := p, resKind := .ok,
    resPayload := p }

/-- An unaddressed frame whose length byte states its payload's length is accepted, whatever follows it (R184, R187). -/
theorem run_unaddrFrame {pre p : Bytes} {c : BitVec 7} (r : Bytes) (hd : s.cfg.distinct)
    (hp : s.decPhase = .seekDelim)
    (hb : s.decBuf = pre ++ (stuff s.cfg (frameUnaddr s.cfg c p) ++ r)) (hn : s.cfg.fend ∉ pre)
    (hl : p.length ≤ 255) : run s = s.decoded c p := by
  rw [stuff_frameUnaddr, List.cons_append] at hb
  rw [run_frameTokens hp hb hn (areTokens_stuffTail hd _) (toNat_lenByte hl).symm,
    takeCrc_of_eq (State.expectedCrc_atCrc s _ _ _ _).symm]
  exact run_of_none (decStep_eq_none.2 (.inl rfl))

theorem exec_unaddrFrame {i : Instr} {c : BitVec 7} {p : Bytes} (hd : s.cfg.distinct) (hp : s.decPhase = .seekDelim)
    (hn : s.cfg.fend ∉ s.decBuf) (hi : i.wireBytes s.cfg = some (stuff s.cfg (frameUnaddr s.cfg c p)))
    (hl : p.length ≤ 255) : exec i s = .next ((s.decoded c p).drive .nothing) := by
  rw [exec_input_active hi (by simp [hp]),
    run_unaddrFrame (s := s.appendBuf _) [] hd hp (by rw [List.append_nil]; rfl) hn hl]
  rfl

/-- Settles O40: the chunks are fed as one, which is an unaddressed frame. -/
theorem builtFrameRoundTrip : Obligations.BuiltFrameRoundTrip := by
  intro s cmd addr p chunks hd hp hn haddr hl hchunks
  rw [build_eq_frameUnaddr haddr] at hchunks
  have hcmd : cmd &&& 0x7F = byteOf7 (low7 cmd) := mask7_eq_byteOf7_low7 cmd
  cases chunks with
  | nil => cases hchunks
  | cons c cs =>
    rw [execAll_decFeed, hchunks, hcmd]
    exact exec_unaddrFrame hd hp hn rfl hl

/-- A verdict writes the payload read, or leaves the result (R169, R170). -/
theorem takeCrc_resPayload (s : State) (k : Byte) :
    (takeCrc s k).resPayload = s.decPayload ∨ (takeCrc s k).resPayload = s.resPayload := by
  by_cases h : k = s.expectedCrc
  · rw [takeCrc_of_eq h]; exact .inl rfl
  · rw [takeCrc_of_ne h]; exact .inr rfl

/-- Settles O48: a length byte states a length under 256, so of a longer payload only a part is ever a result. -/
theorem unaddressedFrameDecodes : Obligations.UnaddressedFrameDecodes := by
  intro s c p hd hp hn
  refine ⟨exec_unaddrFrame hd hp hn rfl, fun hl hempty => ?_⟩
  have hlen : (lenByte p).toNat < p.length := (lenByte p).isLt.trans_le hl
  refine ⟨_, exec_stuffedFrame hd hp hn rfl (List.getElem?_eq_getElem (by simp; omega)), ?_⟩
  rw [State.drive_resPayload]
  intro heq
  obtain h | h := takeCrc_resPayload _ _
  · have htake := congrArg List.length (h.symm.trans heq)
    exact hlen.not_ge (htake.symm.le.trans (List.length_take_le _ _))
  · have hnil : p = [] := heq.symm.trans (h.trans hempty)
    simp [hnil] at hl

/-! An addressed frame. -/

/-- Settles O49: the decoder takes the address byte where a command stands and the command where a length stands. -/
theorem addressedFrameMisread : Obligations.AddressedFrameMisread := by
  intro s a c p body hd hp hn hbody
  have hlen := toNat_byteOf7 c
  have hwire : (Instr.fAddr a c p).wireBytes s.cfg =
      some (s.cfg.fend :: stuffTail s.cfg (addrByte (byteOf7 a) :: byteOf7 c :: body)) := by
    rw [hbody]; exact congrArg some (stuff_frameAddr s.cfg a c p)
  refine ⟨fun hl => ?_, fun r hr => ?_⟩
  · rw [exec_shortFrame hd hp hn hwire (hlen ▸ hl), hlen]
    rfl
  · intro e
    have hexpected (rest : Bytes) :
        (s.atCrc (addrByte (byteOf7 a)) (byteOf7 c) (body.take c.toNat) rest).expectedCrc = e := rfl
    rw [exec_stuffedFrame hd hp hn hwire (hlen ▸ hr), hlen]
    split_ifs with h
    · rw [takeCrc_of_eq (h.trans (hexpected _).symm)]
      rfl
    · rw [takeCrc_of_ne (h.imp fun h => h.trans (hexpected _)), hp]
      rfl

/-! A corrupted byte. -/

section Corrupted

variable {a p z : Bytes} {b c d l v : Byte} {i : Nat}

/-- Every position in a stuffed sequence is in the token of one of its bytes. -/
theorem exists_token_at (hi : i < (stuffTail cfg p).length) :
    ∃ a b z m, p = a ++ b :: z ∧ i = (stuffTail cfg a).length + m ∧ m < (stuffByte cfg b).length := by
  induction p generalizing i with
  | nil => simp at hi
  | cons x xs ih =>
    rw [stuffTail_cons, List.length_append] at hi
    by_cases hx : i < (stuffByte cfg x).length
    · exact ⟨[], x, xs, i, rfl, by simp, hx⟩
    · obtain ⟨a, b, z, m, rfl, hm, hlt⟩ := ih (i := i - (stuffByte cfg x).length) (by omega)
      refine ⟨x :: a, b, z, m, rfl, ?_, hlt⟩
      rw [stuffTail_cons, List.length_append]
      omega

/-- A position that neither holds nor follows a `FESC` is a literal's (R185). -/
theorem exists_literal_at (hi : i < (stuffTail cfg p).length) (hne : (stuffTail cfg p)[i]? ≠ some cfg.fesc)
    (hprev : (d :: stuffTail cfg p)[i]? ≠ some cfg.fesc) :
    ∃ a b z, p = a ++ b :: z ∧ i = (stuffTail cfg a).length ∧ stuffByte cfg b = [b] := by
  obtain ⟨a, b, z, m, rfl, rfl, hm⟩ := exists_token_at hi
  rw [stuffTail_append, stuffTail_cons] at hne hprev
  unfold stuffByte at hne hprev hm
  refine ⟨a, b, z, rfl, ?_⟩
  unfold stuffByte
  split_ifs at hne hprev hm ⊢
  · match m with
    | 0 => simp at hne
    | 1 => simp at hprev
  · match m with
    | 0 => simp at hne
    | 1 => simp at hprev
  · match m with
    | 0 => exact ⟨rfl, rfl⟩

/-- A literal changed to a byte other than `FESC` is again a literal. -/
theorem areTokens_set_literal (hd : cfg.distinct) (hb : stuffByte cfg b = [b]) (hv : v ≠ cfg.fesc) :
    AreTokens cfg ((stuffTail cfg (a ++ b :: z)).set (stuffTail cfg a).length v) (a ++ v :: z) := by
  have hset : (stuffTail cfg (a ++ b :: z)).set (stuffTail cfg a).length v =
      stuffTail cfg a ++ ([v] ++ stuffTail cfg z) := by
    simp [stuffTail_append, hb]
  rw [hset]
  exact (areTokens_stuffTail hd a).append (.cons (isToken_literal hv) (areTokens_stuffTail hd z))

/-- Changing a byte of a frame that is not its length byte leaves a frame with that length byte. -/
theorem exists_frame_of_changed {k : Byte} (h : a ++ b :: z = c :: l :: (p ++ [k])) (ha : a ≠ [c]) (v : Byte) :
    ∃ c' p' k', a ++ v :: z = c' :: l :: (p' ++ [k']) ∧ p'.length = p.length := by
  match a with
  | [] =>
    obtain ⟨-, rfl⟩ := List.cons_eq_cons.1 h
    exact ⟨v, p, k, rfl, rfl⟩
  | [x] =>
    obtain ⟨rfl, -⟩ := List.cons_eq_cons.1 h
    exact absurd rfl ha
  | x :: y :: a =>
    simp only [List.cons_append, List.cons.injEq] at h
    obtain ⟨-, rfl, h⟩ := h
    have hlen := congrArg List.length h
    have hne : a ++ v :: z ≠ [] := by simp
    refine ⟨x, (a ++ v :: z).dropLast, (a ++ v :: z).getLast hne, ?_, ?_⟩
    · rw [List.dropLast_append_getLast hne]
      rfl
    · simp only [List.length_dropLast, List.length_append, List.length_cons, List.length_nil] at hlen ⊢
      omega

/-- With a permutation table a frame with one byte changed does not carry its own checksum (R106 (a)). -/
theorem crc8_ne_of_changed {f f' : Bytes} {k : Byte} (hperm : TablePermutation cfg) (hv : v ≠ b)
    (h : withCrc cfg f = a ++ b :: z) (h' : a ++ v :: z = f' ++ [k]) : k ≠ crc8 cfg f' := by
  rintro rfl
  refine changedByteChangesChecksum cfg a z v b hperm hv ?_
  rw [h', ← h, crc8_withCrc]
  exact crc8_withCrc f'

/-- Reading a frame with one literal changed, other than its length token, ends in a mismatch (R185). -/
theorem exists_run_crcMismatch {p : Bytes} {c : BitVec 7} (r : Bytes) (hd : s.cfg.distinct)
    (hperm : TablePermutation s.cfg) (hp : s.decPhase = .seekDelim) (hn : s.cfg.fend ∉ s.decBuf) (hl : p.length ≤ 255)
    (hf : unaddrTail s.cfg c p = a ++ b :: z) (ha : a ≠ [byteOf7 c]) (hb : stuffByte s.cfg b = [b])
    (hv : v ≠ s.cfg.fesc) (hvb : v ≠ b) :
    ∃ c' p' k, run (s.appendBuf (s.cfg.fend ::
        ((stuffTail s.cfg (unaddrTail s.cfg c p)).set (stuffTail s.cfg a).length v ++ r))) =
      run ((s.atCrc c' (lenByte p) p' r).crcMismatch k) := by
  obtain ⟨c', p', k, hf', hp'⟩ := exists_frame_of_changed hf.symm ha v
  have htokens := areTokens_set_literal (a := a) (z := z) hd hb hv
  rw [← hf, hf'] at htokens
  have hne : k ≠ (s.atCrc c' (lenByte p) p' r).expectedCrc :=
    crc8_ne_of_changed (a := s.cfg.fend :: a) (f := [s.cfg.fend, byteOf7 c, lenByte p] ++ p) hperm hvb
      (congrArg (s.cfg.fend :: ·) hf) (congrArg (s.cfg.fend :: ·) hf')
  refine ⟨c', p', k, ?_⟩
  rw [run_frameTokens (s := s.appendBuf _) hp rfl hn htokens (hp'.trans (toNat_lenByte hl).symm), ← takeCrc_of_ne hne]
  rfl

end Corrupted

/-- Settles O41. A changed literal leaves the tokens of a frame of the same length, whose checksum does not match; a
changed delimiter leaves bytes without `FEND`. Either way the second frame is read from its delimiter. -/
theorem corruptedByteResynchronises : Obligations.CorruptedByteResynchronises := by
  intro s c₁ c₂ v p₁ p₂ w₁ w₂ j hd hperm hp hn hl₁ hl₂ hw₁ hw₂ hj hv
  have ha : s.decPhase.active = true := by simp [hp]
  rw [build_eq_frameUnaddr (by decide)] at hw₁ hw₂
  rw [stuff_frameUnaddr] at hw₁
  subst hw₁
  refine ⟨fun hj₁ hne hprev hfesc hlen => ?_, ?_⟩
  · obtain ⟨i, rfl⟩ := Nat.exists_eq_add_of_le' hj₁
    obtain ⟨a, b, z, hf, rfl, hb⟩ := exists_literal_at (Nat.lt_of_succ_lt_succ hj) hne hprev
    have hab : a ≠ [byteOf7 (low7 c₁)] := by
      rintro rfl
      rw [← mask7_eq_byteOf7_low7] at hlen
      exact hlen rfl
    have hvb : v ≠ b := by
      rintro rfl
      simp [hf, stuffTail_append, hb] at hv
    obtain ⟨c', p', k, hrun⟩ := exists_run_crcMismatch w₂ hd hperm hp hn hl₁ hf hab hb hfesc hvb
    refine ⟨_, k, (s.atCrc c' (lenByte p₁) p' w₂).expectedCrc, exec_input_active rfl ha, ?_⟩
    rw [List.set_cons_succ, List.cons_append, hrun,
      run_unaddrFrame (s := (s.atCrc c' (lenByte p₁) p' w₂).crcMismatch k) (pre := []) [] hd rfl
        (hw₂.trans (List.append_nil _).symm) List.not_mem_nil hl₂]
    exact ⟨rfl, rfl, rfl⟩
  · rintro rfl
    have hpre : s.cfg.fend ∉ s.decBuf ++ v :: stuffTail s.cfg (unaddrTail s.cfg (low7 c₁) p₁) := by
      have hvf : s.cfg.fend ≠ v := by simpa using hv
      simp [hn, hvf, fend_not_mem_stuffTail hd]
    refine ⟨_, exec_input_active rfl ha, ?_⟩
    rw [List.set_cons_zero, run_unaddrFrame (s := s.appendBuf _) (c := low7 c₂) [] hd hp (by simp [hw₂]) hpre hl₂]
    exact ⟨rfl, rfl, rfl⟩

end Sys2Proof.Machine
end

section
/-! PROOFS. The family 60_exceptions.md: where an operation stops (R218), and the wait while nothing is issued (R213). -/

namespace Sys2Proof.Machine

variable {i : Instr} {s : State}

/-! The two sides of `Instr.stops`. -/

/-- An instruction that does not stop answers a next state. -/
theorem exists_exec_next_of_not_stops (h : i.stops s = false) : ∃ t, exec i s = .next t := by
  cases i with
  | crcUpdate d =>
    obtain ⟨a, ha⟩ := Option.isSome_iff_exists.1 (Option.isNone_eq_false_iff.1 h)
    exact ⟨_, exec_crcUpdate_of_acc ha d⟩
  | build cmd addr p => exact ⟨_, exec_build_of_not_overMax h cmd addr⟩
  | crcInit => exact ⟨_, exec_crcInit s⟩
  | stuff b => exact ⟨_, exec_stuff b s⟩
  | unstuff1 buf => exact ⟨_, exec_unstuff1 rfl⟩
  | decStart => exact ⟨_, exec_decStart s⟩
  | decTick => exact ⟨_, exec_decTick s⟩
  | decRead => exact ⟨_, rfl⟩
  | decFeed | wFend | wEscFend | wEscFesc | wEscBad | wEscPart | wLit | fUnaddr | fAddr => exact ⟨_, exec_input rfl⟩

/-- Only `CRC_UPDATE` while `crc_acc` is UNSET and `BUILD` over its bound stop. -/
theorem stops_eq_true (h : i.stops s = true) :
    (∃ d, i = .crcUpdate d ∧ s.crcAcc = none) ∨
    (∃ cmd addr p, i = .build cmd addr p ∧ overMax s.cfg p = true) := by
  cases i with
  | crcUpdate d => exact .inl ⟨d, rfl, Option.isNone_iff_eq_none.1 h⟩
  | build cmd addr p => exact .inr ⟨cmd, addr, p, rfl, h⟩
  | crcInit | stuff | unstuff1 | decStart | decFeed | decTick | decRead | wFend | wEscFend | wEscFesc | wEscBad
  | wEscPart | wLit | fUnaddr | fAddr => cases h

/-- Settles O56, by the two sides of `Instr.stops`: completion in every instruction's own rule, and the named fault or
refusal of the two that stop. -/
theorem stopsOnlyWhereStated : Obligations.StopsOnlyWhereStated := by
  refine fun i s => ⟨exists_exec_next_of_not_stops, fun h => ?_⟩
  obtain ⟨d, rfl, hacc⟩ | ⟨cmd, addr, p, rfl, hmax⟩ := stops_eq_true h
  · exact .inl ⟨d, rfl, hacc, exec_crcUpdate_unset hacc d⟩
  · obtain ⟨m, hm, hlt⟩ := overMax_eq_true_iff.1 hmax
    exact .inr ⟨cmd, addr, p, m, rfl, hm, hlt, exec_build_of_overMax hmax cmd addr⟩

/-- Settles O13: a step with nothing issued is a turn in which the host issues nothing. -/
theorem waitsWithNothingIssued : Obligations.WaitsWithNothingIssued := fun _ => turn_none

end Sys2Proof.Machine
end

section
/-! PROOFS. The family 70_reset_and_hazards.md: power-on (R230), the independence of the CRC unit (R243), and the end of
every decode call under weak fairness (R245). -/

namespace Sys2Proof.Machine

variable {ops : Schedule} {s t u : State} {i : Instr} {m n : Nat}

/-! Power-on. -/

/-- Settles O1: the values are those written out in `State.reset`. -/
theorem powerOnState : Obligations.PowerOnState :=
  ⟨rfl, rfl, rfl, rfl, rfl, rfl, rfl, rfl, rfl, rfl⟩

/-! The CRC unit: its operations write no other register, and no other operation reads or writes `crc_acc`. -/

/-- `CRC_INIT` and `CRC_UPDATE` write `crc_acc` and the output port only (R36). -/
theorem exec_crcOperation_frame (hi : i = .crcInit ∨ ∃ d, i = .crcUpdate d) (h : exec i s = .next t) :
    t = { s with crcAcc := t.crcAcc, out := t.out } := by
  obtain rfl | ⟨d, rfl⟩ := hi
  · obtain rfl := Host.Outcome.next.inj ((exec_crcInit s).symm.trans h)
    rfl
  · cases hacc : s.crcAcc with
    | none => cases (exec_crcUpdate_unset hacc d).symm.trans h
    | some a =>
      obtain rfl := Host.Outcome.next.inj ((exec_crcUpdate_of_acc hacc d).symm.trans h)
      rfl

theorem feed_withCrcAcc (s : State) (w : Bytes) (a : Option Byte) :
    feed { s with crcAcc := a } w = { feed s w with crcAcc := a } := by
  obtain ⟨-, -, helapsed, hout, hpending⟩ := feed_frame s w
  have hfeed := feed_withOthers a s.decElapsed s.out s.pending s w
  rw [← helapsed, ← hout, ← hpending] at hfeed
  simpa only [State.withOthers, helapsed, hout, hpending] using hfeed

theorem tick_withCrcAcc (s : State) (a : Option Byte) :
    tick { s with crcAcc := a } = { tick s with crcAcc := a } := by
  obtain ⟨ha, ht⟩ | ⟨ha, hlt, ht⟩ | ⟨ha, hge, ht⟩ := tick_cases s <;> rw [ht]
  · exact tick_of_inactive ha
  · exact tick_of_lt ha hlt
  · exact tick_of_ge ha hge

/-- What is no operation of the CRC unit does the same whatever `crc_acc` holds, and keeps it (R243). -/
theorem exec_withCrcAcc (hinit : i ≠ .crcInit) (hupdate : ∀ d, i ≠ .crcUpdate d) (h : exec i s = .next t)
    (a : Option Byte) : exec i { s with crcAcc := a } = .next { t with crcAcc := a } := by
  obtain ⟨w, hw, rfl⟩ | ⟨rfl, rfl⟩ | ⟨rfl, rfl⟩ | ⟨hi, -⟩ | ⟨d, _, hi, -⟩ | ⟨_, rfl, rfl⟩ | ⟨_, rfl, rfl⟩ |
    ⟨cmd, addr, p, rfl, hmax, rfl⟩ | ⟨rfl, rfl⟩ := exec_next h
  · rw [exec_input (s := { s with crcAcc := a }) hw, feed_withCrcAcc]
    rfl
  · rfl
  · rw [exec_decTick, tick_withCrcAcc]
    rfl
  · exact absurd hi hinit
  · exact absurd hi (hupdate d)
  · rfl
  · rfl
  · exact exec_build_of_not_overMax (s := { s with crcAcc := a }) hmax cmd addr
  · rfl

/-- Settles O54: the frame of the two CRC operations, and for the others the access table and `exec_withCrcAcc`. -/
theorem crcUnitIndependent : Obligations.CrcUnitIndependent := by
  refine fun i s t a h => ⟨fun hi => exec_crcOperation_frame hi h, fun hinit hupdate => ⟨?_, ?_⟩⟩
  · by_contra hchanged
    exact ((accessTable i s t h).1 hchanged).elim hinit (not_exists.2 hupdate)
  · exact exec_withCrcAcc hinit hupdate h a

/-! Executions from an empty queue. -/

/-- With nothing else waiting, a turn that answers a next state waited, or executed what was issued in it. -/
theorem turn_next {op : Option Instr} (hc : s.cfg.wf) (hp : s.pending = []) (h : turn op s = .next t) :
    (op = none ∧ t = s) ∨ ∃ i, op = some i ∧ exec i s = .next t := by
  cases op with
  | none => exact .inl ⟨rfl, (Host.Outcome.next.inj ((turn_none hc hp).symm.trans h)).symm⟩
  | some i =>
    cases hwf : i.wf s.cfg with
    | true => exact .inr ⟨i, rfl, (turn_some hc hp hwf).symm.trans h⟩
    | false =>
      have hstop : turn (some i) s = .refused .illFormedInstruction :=
        step_whole_illFormed (s := s.issue (.whole i)) (later := []) hc hwf (by simp [hp])
      rw [hstop] at h
      cases h

/-- From turn `n` on the configuration stays and the queue is empty after every turn, and what each issued instruction
keeps is kept. -/
theorem after_preserves {P : State → Prop} (hc : t.cfg.wf) (hp : t.pending = []) (ht : after ops s n = .next t)
    (hstep : ∀ k i v w, n ≤ k → ops k = some i → v.cfg = t.cfg → exec i v = .next w → P v → P w) (hP : P t)
    (hnm : n ≤ m) (hu : after ops s m = .next u) : u.cfg = t.cfg ∧ u.pending = [] ∧ P u := by
  induction m, hnm using Nat.le_induction generalizing u with
  | base =>
    obtain rfl := Host.Outcome.next.inj (ht.symm.trans hu)
    exact ⟨rfl, hp, hP⟩
  | succ k hnk ih =>
    obtain ⟨v, hv, hturn⟩ := after_succ_next hu
    obtain ⟨hcfg, hpending, hPv⟩ := ih hv
    obtain ⟨-, rfl⟩ | ⟨i, hop, hexec⟩ := turn_next (hcfg ▸ hc) hpending hturn
    · exact ⟨hcfg, hpending, hPv⟩
    · obtain ⟨hcfg', hpending'⟩ := exec_frame hexec
      exact ⟨hcfg'.trans hcfg, hpending'.trans hpending, hstep k i v u hnk hop hcfg hexec hPv⟩

/-- No execution writes the configuration, and after each turn the queue is empty again (R34, R60). -/
theorem after_frame (hc : s.cfg.wf) (hp : s.pending = []) (ht : after ops s n = .next t) :
    t.cfg = s.cfg ∧ t.pending = [] := by
  obtain ⟨hcfg, hpending, -⟩ := after_preserves (P := fun _ => True) hc hp (after_zero ops s)
    (fun _ _ _ _ _ _ _ _ _ => trivial) trivial n.zero_le ht
  exact ⟨hcfg, hpending⟩

/-! The elapsed count: only `DEC_START` sets it back, and every tick of an active decoder raises it (R29). -/

theorem decElapsed_le_of_exec (hi : i ≠ .decStart) (h : exec i s = .next t) : s.decElapsed ≤ t.decElapsed := by
  obtain ⟨w, -, rfl⟩ | ⟨hstart, -⟩ | ⟨-, rfl⟩ | ⟨-, a, o, rfl⟩ | ⟨o, rfl⟩ := exec_next_units h
  · obtain ⟨-, -, helapsed, -, -⟩ := feed_frame s w
    exact helapsed.ge
  · exact absurd hstart hi
  · obtain ⟨-, ht⟩ | ⟨-, -, ht⟩ | ⟨-, -, ht⟩ := tick_cases s <;> simp [ht]
  · exact le_rfl
  · exact le_rfl

theorem decElapsed_le_of_after (hc : t.cfg.wf) (hp : t.pending = []) (ht : after ops s n = .next t)
    (hstart : ∀ k, n ≤ k → ops k ≠ some .decStart) (hnm : n ≤ m) (hu : after ops s m = .next u) :
    t.decElapsed ≤ u.decElapsed := by
  obtain ⟨-, -, hle⟩ := after_preserves (P := fun v => t.decElapsed ≤ v.decElapsed) hc hp ht
    (fun k i _ _ hk hop _ hexec hle =>
      hle.trans (decElapsed_le_of_exec (fun hi => hstart k hk (hi ▸ hop)) hexec)) le_rfl hnm hu
  exact hle

theorem decElapsed_tick_of_active (ha : s.decPhase.active = true) : (tick s).decElapsed = s.decElapsed + 1 := by
  obtain ⟨hinactive, -⟩ | ⟨-, -, ht⟩ | ⟨-, -, ht⟩ := tick_cases s
  · simp [ha] at hinactive
  · rw [ht]
  · rw [ht]
    rfl

/-! Weak fairness: a call that stays active meets a tick again and again, so its count passes every bound, and the tick
at the deadline ends it. -/

section Fair

variable (hc : s.cfg.wf) (hp : s.pending = []) (hfair : WeaklyFair ops s)
  (hactive : ∀ m, n ≤ m → ActiveAt ops s m) (hstart : ∀ m, n ≤ m → ops m ≠ some .decStart)

include hc hp hfair hactive hstart

/-- From each turn of a call that stays active a later one is a tick, and until then the count has not gone back. -/
theorem exists_tick_after (hnm : n ≤ m) (ht : after ops s m = .next t) :
    ∃ k u, m ≤ k ∧ t.decElapsed ≤ u.decElapsed ∧ u.decPhase.active = true ∧ u.cfg = s.cfg ∧
      after ops s (k + 1) = .next ((tick u).drive .nothing) := by
  obtain ⟨k, hmk, htick⟩ := hfair m fun j hj => hactive j (hnm.trans hj)
  obtain ⟨u, hu, ha⟩ := hactive k (hnm.trans hmk)
  obtain ⟨htcfg, htpending⟩ := after_frame hc hp ht
  obtain ⟨hucfg, hupending⟩ := after_frame hc hp hu
  have hle := decElapsed_le_of_after (htcfg ▸ hc) htpending ht (fun j hj => hstart j (hnm.trans hj)) hmk hu
  refine ⟨k, u, hmk, hle, ha, hucfg, ?_⟩
  rw [after_succ hu, htick, turn_some (hucfg ▸ hc) hupending rfl, exec_decTick]

/-- The elapsed count of a call that stays active passes every bound. -/
theorem exists_decElapsed_ge (b : Nat) : ∃ m t, n ≤ m ∧ after ops s m = .next t ∧ b ≤ t.decElapsed := by
  induction b with
  | zero =>
    obtain ⟨t, ht, -⟩ := hactive n le_rfl
    exact ⟨n, t, le_rfl, ht, Nat.zero_le _⟩
  | succ b ih =>
    obtain ⟨m, t, hnm, ht, hb⟩ := ih
    obtain ⟨k, u, hmk, hle, ha, -, hk⟩ := exists_tick_after hc hp hfair hactive hstart hnm ht
    refine ⟨k + 1, _, (hnm.trans hmk).trans k.le_succ, hk, ?_⟩
    rw [State.drive_decElapsed, decElapsed_tick_of_active ha]
    exact Nat.succ_le_succ (hb.trans hle)

/-- No call stays active for ever: the tick after the count has reached the deadline is a timeout (R173, R174). -/
theorem false_of_active_forever : False := by
  obtain ⟨m, t, hnm, ht, hdeadline⟩ := exists_decElapsed_ge hc hp hfair hactive hstart s.cfg.deadlineTicks
  obtain ⟨k, u, hmk, hle, ha, hcfg, hk⟩ := exists_tick_after hc hp hfair hactive hstart hnm ht
  have hpast : u.cfg.deadlineTicks ≤ u.decElapsed + 1 := by
    rw [hcfg]
    exact (hdeadline.trans hle).trans (Nat.le_succ _)
  obtain ⟨v, hv, hva⟩ := hactive (k + 1) ((hnm.trans hmk).trans k.le_succ)
  obtain rfl := Host.Outcome.next.inj (hk.symm.trans hv)
  simp [tick_of_ge ha hpast] at hva

end Fair

/-! Without fairness: nothing but input and ticks leads out of `SEEK_DELIM`. -/

theorem exec_seekDelim_of_no_input_no_tick (hseek : s.decPhase = .seekDelim) (hi : i ≠ .decTick)
    (hw : i.wireBytes s.cfg = none) (h : exec i s = .next t) : t.decPhase = .seekDelim := by
  obtain ⟨w, hw', -⟩ | ⟨-, rfl⟩ | ⟨htick, -⟩ | ⟨-, a, o, rfl⟩ | ⟨o, rfl⟩ := exec_next_units h
  · simp [hw] at hw'
  · rfl
  · exact absurd htick hi
  · exact hseek
  · exact hseek

/-- Settles O60: a call that never ended would count past its deadline and be active there still; and a host that neither
feeds nor ticks never leads out of `SEEK_DELIM`. -/
theorem fairCallsEnd : Obligations.FairCallsEnd := by
  refine fun ops s hc hp hnever => ⟨fun hfair n hstart => ?_, fun hseek hidle m => ?_⟩
  · by_contra hends
    refine false_of_active_forever hc hp hfair (n := n) (fun m hnm => ?_) hstart
    obtain ⟨t, ht⟩ := hnever m
    have ha : t.decPhase.active ≠ false := fun ha => hends ⟨m, t, hnm, ht, ha⟩
    exact ⟨t, ht, Bool.eq_true_of_not_eq_false ha⟩
  · obtain ⟨t, ht⟩ := hnever m
    obtain ⟨-, -, hphase⟩ := after_preserves (P := fun v => v.decPhase = .seekDelim) hc hp (after_zero ops s)
      (fun k i v _ _ hop hcfg hexec hv =>
        exec_seekDelim_of_no_input_no_tick hv (hidle k i hop).1 (hcfg ▸ (hidle k i hop).2) hexec)
      hseek m.zero_le ht
    exact ⟨t, ht, hphase⟩

end Sys2Proof.Machine
end
